-- ==== Sys2Proof/Word.lean ====
section
/-! DEFINITION. The word types of the CHIP8 VM core: bytes, 16-bit words and the instruction fields. -/

namespace Sys2Proof

/-- A register or memory byte, 8 bits, unsigned (R20, R36). -/
abbrev Byte := BitVec 8

/-- A 16-bit value: I, PC, a stack entry, an instruction word (R25, R28, R31, R92). -/
abbrev Word := BitVec 16

/-- A general register's index, always a 4-bit field or a number bounded by one (R20). -/
abbrev RegIdx := BitVec 4

/-- A 4-bit immediate, the field N (R94). -/
abbrev Nibble := BitVec 4

/-- A 12-bit address, the field NNN (R94). -/
abbrev Addr12 := BitVec 12

/-- A key number, 0 to 15 (R239). -/
abbrev Key := BitVec 4

end Sys2Proof
end

