-- ==== Sys2Proof/Machine/Flags.lean ====
section
/-! DEFINITION. Every flag the machine computes into VF but the collision, which the blitter computes (R23). -/

namespace Sys2Proof.Machine

/-- `ADD`: the ninth bit of the exact sum (R158). -/
def carryFlag (a b : Byte) : Bool := 255 < a.toNat + b.toNat

/-- `SUB`, `SUBN`: no borrow, minuend ≥ subtrahend (R159, R161). -/
def noBorrowFlag (minuend subtrahend : Byte) : Bool := subtrahend.toNat ≤ minuend.toNat

/-- `SHR`: the dropped bit 0 (R160). -/
def droppedLow (a : Byte) : Bool := a.getLsbD 0

/-- `SHL`: the dropped bit 7 (R162). -/
def droppedHigh (a : Byte) : Bool := a.getLsbD 7

end Sys2Proof.Machine
end

