-- ==== Sys2Proof/Syntax.lean ====
section
/-! DEFINITION. The abstract syntax: one constructor per row of spec/opcode_table.json, in the table's order.
A field that a row ignores (N of 5XY- and 9XY-, Y of the shifts: R96, R108) is kept, so that an instruction
still determines its word, which an error record holds (R220). -/

namespace Sys2Proof

inductive Instr where
  /-- `SYS addr`, 0NNN (R131). -/
  | sys (nnn : Addr12)
  /-- `CLS`, 00E0 (R181). -/
  | cls
  /-- `RET`, 00EE (R132). -/
  | ret
  /-- `JP addr`, 1NNN (R133). -/
  | jp (nnn : Addr12)
  /-- `CALL addr`, 2NNN (R134). -/
  | call (nnn : Addr12)
  /-- `SE Vx, byte`, 3XNN (R135). -/
  | seByte (x : RegIdx) (nn : Byte)
  /-- `SNE Vx, byte`, 4XNN (R136). -/
  | sneByte (x : RegIdx) (nn : Byte)
  /-- `SE Vx, Vy`, 5XY-; `n` is ignored (R137). -/
  | seReg (x y : RegIdx) (n : Nibble)
  /-- `LD Vx, byte`, 6XNN (R152). -/
  | ldByte (x : RegIdx) (nn : Byte)
  /-- `ADD Vx, byte`, 7XNN (R153). -/
  | addByte (x : RegIdx) (nn : Byte)
  /-- `LD Vx, Vy`, 8XY0 (R154). -/
  | ldReg (x y : RegIdx)
  /-- `OR Vx, Vy`, 8XY1 (R155). -/
  | orReg (x y : RegIdx)
  /-- `AND Vx, Vy`, 8XY2 (R156). -/
  | andReg (x y : RegIdx)
  /-- `XOR Vx, Vy`, 8XY3 (R157). -/
  | xorReg (x y : RegIdx)
  /-- `ADD Vx, Vy`, 8XY4 (R158). -/
  | addReg (x y : RegIdx)
  /-- `SUB Vx, Vy`, 8XY5 (R159). -/
  | subReg (x y : RegIdx)
  /-- `SHR Vx {, Vy}`, 8XY6; `y` is ignored unless SHIFT_USES_Y (R160). -/
  | shr (x y : RegIdx)
  /-- `SUBN Vx, Vy`, 8XY7 (R161). -/
  | subn (x y : RegIdx)
  /-- `SHL Vx {, Vy}`, 8XYE; `y` is ignored unless SHIFT_USES_Y (R162). -/
  | shl (x y : RegIdx)
  /-- `SNE Vx, Vy`, 9XY-; `n` is ignored (R138). -/
  | sneReg (x y : RegIdx) (n : Nibble)
  /-- `LD I, addr`, ANNN (R201). -/
  | ldI (nnn : Addr12)
  /-- `JP V0, addr`, BNNN (R139). -/
  | jpV0 (nnn : Addr12)
  /-- `RND Vx, byte`, CXNN (R163). -/
  | rnd (x : RegIdx) (nn : Byte)
  /-- `DRW Vx, Vy, nibble`, DXYN (R182). -/
  | drw (x y : RegIdx) (n : Nibble)
  /-- `SKP Vx`, EX9E (R191). -/
  | skp (x : RegIdx)
  /-- `SKNP Vx`, EXA1 (R192). -/
  | sknp (x : RegIdx)
  /-- `LD Vx, DT`, FX07 (R193). -/
  | ldVxDt (x : RegIdx)
  /-- `LD Vx, K`, FX0A (R194). -/
  | ldVxK (x : RegIdx)
  /-- `LD DT, Vx`, FX15 (R195). -/
  | ldDtVx (x : RegIdx)
  /-- `LD ST, Vx`, FX18 (R196). -/
  | ldStVx (x : RegIdx)
  /-- `ADD I, Vx`, FX1E (R202). -/
  | addI (x : RegIdx)
  /-- `LD F, Vx`, FX29 (R203). -/
  | ldF (x : RegIdx)
  /-- `LD B, Vx`, FX33 (R205). -/
  | ldB (x : RegIdx)
  /-- `LD [I], Vx`, FX55; `x` is a count here (R206). -/
  | storeBlock (x : RegIdx)
  /-- `LD Vx, [I]`, FX65; `x` is a count here (R207). -/
  | loadBlock (x : RegIdx)
deriving DecidableEq, Repr

end Sys2Proof
end

