-- ==== Sys2Proof/WellFormed.lean ====
section
/-! DEFINITION. Which terms of Instr are instructions. The operand types hold every field to its width, so one
check is left: a `SYS` is a class-0 word OTHER than the two fixed words of class 0 (R100, R107). -/

namespace Sys2Proof

/-- The check: the NNN of a `SYS` is neither that of `CLS` nor that of `RET`. -/
abbrev Instr.WellFormed : Instr → Prop
  | .sys nnn => nnn ≠ 0x0E0#12 ∧ nnn ≠ 0x0EE#12
  | _ => True

end Sys2Proof
end

