-- ==== Sys2Proof/Decode.lean ====
section
/-! DEFINITION. The instruction decoder (R93, R94), the dispatch multiplexer (R98 to R104, R106), and the encoder,
written from the same rows. `decodeWord` is total: a word that selects no instruction is rejected by name. -/

namespace Sys2Proof

/-! ## Fields -/

/-- The record the decoder puts out, for every word (R93). -/
structure Fields where
  cls : BitVec 4
  x : RegIdx
  y : RegIdx
  n : Nibble
  nn : Byte
  nnn : Addr12
deriving DecidableEq, Repr

/-- The fields of a word: bit positions of R94. -/
def fieldsOf (w : Word) : Fields where
  cls := w.extractLsb' 12 4
  x := w.extractLsb' 8 4
  y := w.extractLsb' 4 4
  n := w.extractLsb' 0 4
  nn := w.extractLsb' 0 8
  nnn := w.extractLsb' 0 12

/-- The byte order of fetch, in this one place: the byte at the lower address is the high byte (R63, D3). -/
def wordOfBytes (first second : Byte) : Word := first ++ second

/-- The two bytes of a word as they lie in memory, lowest address first (R63, R112). -/
def bytesOfWord (w : Word) : List Byte := [w.extractLsb' 8 8, w.extractLsb' 0 8]

/-! ## Dispatch -/

/-- Why a word or a byte sequence is no instruction. -/
inductive DecodeReject where
  /-- Class 8 with an N that no row has (R106 a). -/
  | class8 (n : Nibble)
  /-- Class E with an NN that no row has (R106 b). -/
  | classE (nn : Byte)
  /-- Class F with an NN that no row has (R106 c). -/
  | classF (nn : Byte)
  /-- Fewer than the two bytes that every instruction has (R92). -/
  | truncated
deriving DecidableEq, Repr

/-- Class 0: the two fixed words first, then `SYS` (R100, R107). -/
def selectClass0 (f : Fields) : Instr :=
  if f.nnn = 0x0E0#12 then .cls else if f.nnn = 0x0EE#12 then .ret else .sys f.nnn

/-- Class 8, on N (R101). -/
def selectClass8 (f : Fields) : Except DecodeReject Instr :=
  match f.n with
  | 0x0#4 => .ok (.ldReg f.x f.y)
  | 0x1#4 => .ok (.orReg f.x f.y)
  | 0x2#4 => .ok (.andReg f.x f.y)
  | 0x3#4 => .ok (.xorReg f.x f.y)
  | 0x4#4 => .ok (.addReg f.x f.y)
  | 0x5#4 => .ok (.subReg f.x f.y)
  | 0x6#4 => .ok (.shr f.x f.y)
  | 0x7#4 => .ok (.subn f.x f.y)
  | 0xE#4 => .ok (.shl f.x f.y)
  | n => .error (.class8 n)

/-- Class E, on NN (R103). -/
def selectClassE (f : Fields) : Except DecodeReject Instr :=
  match f.nn with
  | 0x9E#8 => .ok (.skp f.x)
  | 0xA1#8 => .ok (.sknp f.x)
  | nn => .error (.classE nn)

/-- Class F, on NN (R104). -/
def selectClassF (f : Fields) : Except DecodeReject Instr :=
  match f.nn with
  | 0x07#8 => .ok (.ldVxDt f.x)
  | 0x0A#8 => .ok (.ldVxK f.x)
  | 0x15#8 => .ok (.ldDtVx f.x)
  | 0x18#8 => .ok (.ldStVx f.x)
  | 0x1E#8 => .ok (.addI f.x)
  | 0x29#8 => .ok (.ldF f.x)
  | 0x33#8 => .ok (.ldB f.x)
  | 0x55#8 => .ok (.storeBlock f.x)
  | 0x65#8 => .ok (.loadBlock f.x)
  | nn => .error (.classF nn)

/-- Primary dispatch on the class nibble (R98); the last arm is class F, the one value of four bits left. -/
def selectInstr (f : Fields) : Except DecodeReject Instr :=
  match f.cls with
  | 0x0#4 => .ok (selectClass0 f)
  | 0x1#4 => .ok (.jp f.nnn)
  | 0x2#4 => .ok (.call f.nnn)
  | 0x3#4 => .ok (.seByte f.x f.nn)
  | 0x4#4 => .ok (.sneByte f.x f.nn)
  | 0x5#4 => .ok (.seReg f.x f.y f.n)
  | 0x6#4 => .ok (.ldByte f.x f.nn)
  | 0x7#4 => .ok (.addByte f.x f.nn)
  | 0x8#4 => selectClass8 f
  | 0x9#4 => .ok (.sneReg f.x f.y f.n)
  | 0xA#4 => .ok (.ldI f.nnn)
  | 0xB#4 => .ok (.jpV0 f.nnn)
  | 0xC#4 => .ok (.rnd f.x f.nn)
  | 0xD#4 => .ok (.drw f.x f.y f.n)
  | 0xE#4 => selectClassE f
  | _ => selectClassF f

/-- Decoder and dispatch together: the instruction a word selects, in every state the same (R109). -/
def decodeWord (w : Word) : Except DecodeReject Instr := selectInstr (fieldsOf w)

/-- The instruction at the head of a byte sequence, with the bytes after it; an instruction is two bytes (R92). -/
def decodeBytes : List Byte → Except DecodeReject (Instr × List Byte)
  | first :: second :: rest => (decodeWord (wordOfBytes first second)).map fun i => (i, rest)
  | _ => .error .truncated

/-! ## The opcode table and the encoder -/

/-- A row of the opcode map: a word selects it when its bits under the mask are the pattern (R100 to R104). -/
structure OpcodeRow where
  pattern : Word
  mask : Word
deriving DecidableEq, Repr

/-- The opcode map's row for an instruction (R100 to R104). -/
def opcodeRow : Instr → OpcodeRow
  | .sys _ => ⟨0x0000, 0xF000⟩
  | .cls => ⟨0x00E0, 0xFFFF⟩
  | .ret => ⟨0x00EE, 0xFFFF⟩
  | .jp _ => ⟨0x1000, 0xF000⟩
  | .call _ => ⟨0x2000, 0xF000⟩
  | .seByte _ _ => ⟨0x3000, 0xF000⟩
  | .sneByte _ _ => ⟨0x4000, 0xF000⟩
  | .seReg _ _ _ => ⟨0x5000, 0xF000⟩
  | .ldByte _ _ => ⟨0x6000, 0xF000⟩
  | .addByte _ _ => ⟨0x7000, 0xF000⟩
  | .ldReg _ _ => ⟨0x8000, 0xF00F⟩
  | .orReg _ _ => ⟨0x8001, 0xF00F⟩
  | .andReg _ _ => ⟨0x8002, 0xF00F⟩
  | .xorReg _ _ => ⟨0x8003, 0xF00F⟩
  | .addReg _ _ => ⟨0x8004, 0xF00F⟩
  | .subReg _ _ => ⟨0x8005, 0xF00F⟩
  | .shr _ _ => ⟨0x8006, 0xF00F⟩
  | .subn _ _ => ⟨0x8007, 0xF00F⟩
  | .shl _ _ => ⟨0x800E, 0xF00F⟩
  | .sneReg _ _ _ => ⟨0x9000, 0xF000⟩
  | .ldI _ => ⟨0xA000, 0xF000⟩
  | .jpV0 _ => ⟨0xB000, 0xF000⟩
  | .rnd _ _ => ⟨0xC000, 0xF000⟩
  | .drw _ _ _ => ⟨0xD000, 0xF000⟩
  | .skp _ => ⟨0xE09E, 0xF0FF⟩
  | .sknp _ => ⟨0xE0A1, 0xF0FF⟩
  | .ldVxDt _ => ⟨0xF007, 0xF0FF⟩
  | .ldVxK _ => ⟨0xF00A, 0xF0FF⟩
  | .ldDtVx _ => ⟨0xF015, 0xF0FF⟩
  | .ldStVx _ => ⟨0xF018, 0xF0FF⟩
  | .addI _ => ⟨0xF01E, 0xF0FF⟩
  | .ldF _ => ⟨0xF029, 0xF0FF⟩
  | .ldB _ => ⟨0xF033, 0xF0FF⟩
  | .storeBlock _ => ⟨0xF055, 0xF0FF⟩
  | .loadBlock _ => ⟨0xF065, 0xF0FF⟩

/-- A word selects a row (R100). -/
abbrev OpcodeRow.Selects (r : OpcodeRow) (w : Word) : Prop := w &&& r.mask = r.pattern

/-- Format NNN (R95). -/
def packNNN (cls : BitVec 4) (nnn : Addr12) : Word := cls ++ nnn
/-- Format XNN (R95). -/
def packXNN (cls : BitVec 4) (x : RegIdx) (nn : Byte) : Word := cls ++ (x ++ nn)
/-- Formats XYN and XY (R95). -/
def packXYN (cls : BitVec 4) (x y : RegIdx) (n : Nibble) : Word := cls ++ (x ++ (y ++ n))

/-- The word of an instruction: its format (R95) filled with its row's constants and its operands. -/
def encode : Instr → Word
  | .sys nnn => packNNN 0x0 nnn
  | .cls => 0x00E0
  | .ret => 0x00EE
  | .jp nnn => packNNN 0x1 nnn
  | .call nnn => packNNN 0x2 nnn
  | .seByte x nn => packXNN 0x3 x nn
  | .sneByte x nn => packXNN 0x4 x nn
  | .seReg x y n => packXYN 0x5 x y n
  | .ldByte x nn => packXNN 0x6 x nn
  | .addByte x nn => packXNN 0x7 x nn
  | .ldReg x y => packXYN 0x8 x y 0x0
  | .orReg x y => packXYN 0x8 x y 0x1
  | .andReg x y => packXYN 0x8 x y 0x2
  | .xorReg x y => packXYN 0x8 x y 0x3
  | .addReg x y => packXYN 0x8 x y 0x4
  | .subReg x y => packXYN 0x8 x y 0x5
  | .shr x y => packXYN 0x8 x y 0x6
  | .subn x y => packXYN 0x8 x y 0x7
  | .shl x y => packXYN 0x8 x y 0xE
  | .sneReg x y n => packXYN 0x9 x y n
  | .ldI nnn => packNNN 0xA nnn
  | .jpV0 nnn => packNNN 0xB nnn
  | .rnd x nn => packXNN 0xC x nn
  | .drw x y n => packXYN 0xD x y n
  | .skp x => packXNN 0xE x 0x9E
  | .sknp x => packXNN 0xE x 0xA1
  | .ldVxDt x => packXNN 0xF x 0x07
  | .ldVxK x => packXNN 0xF x 0x0A
  | .ldDtVx x => packXNN 0xF x 0x15
  | .ldStVx x => packXNN 0xF x 0x18
  | .addI x => packXNN 0xF x 0x1E
  | .ldF x => packXNN 0xF x 0x29
  | .ldB x => packXNN 0xF x 0x33
  | .storeBlock x => packXNN 0xF x 0x55
  | .loadBlock x => packXNN 0xF x 0x65

/-- The bytes of an instruction as they lie in memory (R112). -/
def encodeBytes (i : Instr) : List Byte := bytesOfWord (encode i)

/-! ## The host's question about a table row -/

/-- The instruction the decoder reads from the word whose low `nbits` bits are those of `w`, laid out as memory
holds it; bit 0 is the least significant bit of the word, as spec/opcode_table.json numbers it. -/
def decodeTableWord (nbits w : Nat) : Option Instr :=
  match decodeBytes (bytesOfWord (BitVec.ofNat 16 (w % 2 ^ nbits))) with
  | .ok (i, _) => some i
  | .error _ => none

end Sys2Proof
end

