-- ==== Sys2Proof/Config.lean ====
section
/-! DEFINITION. What an implementation fixes (the parameters of 00_scope.md R5) and the free values: what the
host supplies to a turn that nothing has fixed yet. -/

namespace Sys2Proof

/-- The sizes the spec itself fixes (R5). -/
abbrev Config.stackDepth : Nat := 16

/-- The parameters that R5 leaves open. A machine holds them in `State.cfg`, and no step changes them. -/
structure Params where
  /-- MEM_SIZE, the number of bytes of memory. -/
  memSize : Nat
  /-- LOAD_BASE, where programs begin and the reserved region ends. -/
  loadBase : Nat
  /-- FONT_BASE, the start of the 80-byte font table. -/
  fontBase : Nat
  /-- DISPLAY_W, the number of pixel columns. -/
  dispW : Nat
  /-- DISPLAY_H, the number of pixel rows. -/
  dispH : Nat
  /-- SHIFT_USES_Y: false shifts Vx in place, true shifts Vy into Vx. -/
  shiftUsesY : Bool
deriving DecidableEq, Repr

/-- The constraints that R5 puts on a set of parameters. -/
abbrev Params.WellFormed (p : Params) : Prop :=
  2 ≤ p.memSize ∧ p.memSize ≤ 65536 ∧ p.loadBase < p.memSize ∧ p.fontBase + 80 ≤ p.loadBase ∧
    8 ≤ p.dispW ∧ 15 ≤ p.dispH

/-- The defaults of R5. DESIGN CHOICE (notes/assumptions/2.md): State.reset takes them. -/
def Config.defaults : Params where
  memSize := 4096
  loadBase := 0x200
  fontBase := 0x000
  dispW := 64
  dispH := 32
  shiftUsesY := false

/-! The free values (notes/assumptions/4.md): what the host does at free turn `n`, under no law (R235, R237, R238,
R240, D20, D21, D25). They have no body, so nothing can be proved of their values. -/

/-- Does the clock host take free turn `n` for a tick? -/
opaque Config.freeTick : Nat → Bool
/-- The key levels of free turn `n`, bit `k` set when key `k` is down (R237). -/
opaque Config.freeKeys : Nat → BitVec 16
/-- The key event of free turn `n`, if there is one (R238). -/
opaque Config.freeKeyEvent : Nat → Option Key
/-- The random byte of free turn `n` (R240). -/
opaque Config.freeRnd : Nat → Byte

end Sys2Proof
end

