-- ==== Sys2Proof/Machine/State.lean ====
section
/-! DEFINITION. The state of the machine as plain data (10_state.md), the reasons a step can stop, and reset. -/

namespace Sys2Proof.Machine

/-- The seven reported errors (R220). -/
inductive ErrorCode where
  /-- Code 1: a word with no row, and `SYS` (R221). -/
  | unimplementedOpcode
  /-- Code 2: `CALL` with a full stack (R222). -/
  | stackOverflow
  /-- Code 3: `RET` with an empty stack (R223). -/
  | stackUnderflow
  /-- Code 4: a fetch or data access at or above MEM_SIZE (R224). -/
  | memoryRange
  /-- Code 5: a store below LOAD_BASE (R225). -/
  | reservedWrite
  /-- Code 6: a key or glyph number above 15 (R226). -/
  | indexRange
  /-- Code 7: a fetch at an odd offset from LOAD_BASE (R227). -/
  | pcMisaligned
deriving DecidableEq, Repr

/-- What a `raise` names: the error and its recorded info (R9, R220). -/
structure Raised where
  code : ErrorCode
  info : Nat
deriving DecidableEq, Repr

/-- An error record `(code, PC, w, info)`; `word` is none when the fetch itself failed (R220). -/
structure ErrorRecord where
  code : ErrorCode
  pc : Word
  word : Option Word
  info : Nat
deriving DecidableEq, Repr

/-- One turn of the host's side: whether the clock host moves now (a tick, R234) or the core does, and the three
inputs a core step would sample (R10). The model's own form of the schedule (notes/assumptions/4.md). -/
structure HostTurn where
  tick : Bool
  /-- Bit `k` is set when key `k` is down (R237). -/
  keys : BitVec 16
  /-- Nothing, or the key the host reports (R238). -/
  keyEvent : Option Key
  /-- The byte of the entropy interface (R240). -/
  rnd : Byte
deriving DecidableEq, Repr

/-- Memory: (address, byte) pairs, addresses strictly rising, no entry equal to what its address reads as unlisted. -/
abbrev Memory := List Host.Cell

/-- The framebuffer: rows from the top, each a list of pixels from the left; true is a pixel of value 1 (R37). -/
abbrev Display := List (List Bool)

/-- The Machine State (10_state.md), and the model's own fields `cfg`, `script`, `turnNo`. -/
structure State where
  /-- The implementation parameters (R5); no step changes them. -/
  cfg : Params
  /-- V[0] .. V[15]; VF is V[15] (R20, R22). -/
  v : Vector Byte 16
  /-- The address register I (R28). -/
  i : Word
  /-- The program counter (R25). -/
  pc : Word
  /-- The stack pointer, the number of live entries (R30). -/
  sp : Byte
  /-- The call stack (R31). -/
  stack : Vector Word 16
  /-- The delay timer (R33). -/
  dt : Byte
  /-- The sound timer (R34). -/
  st : Byte
  /-- The memory (R36). -/
  mem : Memory
  /-- The display (R37). -/
  disp : Display
  /-- The error latch ERR (R40). -/
  err : Option ErrorRecord
  /-- Host turns that are already fixed, the next one first (notes/assumptions/4.md). -/
  script : List HostTurn
  /-- How many turns have been taken: the index of the next free turn (notes/assumptions/4.md). -/
  turnNo : Nat
deriving DecidableEq, Repr

/-- Why the machine stops. -/
inductive Fault where
  /-- Raised by `step` when it is the core's turn and an error is latched: a halted core has no step (R91, R229).
  Safe: the spec gives the core no further behaviour until reset. -/
  | halted (e : ErrorRecord)
  /-- Raised by `CALL` and `RET` when SP holds 17 to 255, values that are never produced (R30): the spec gives no
  rule for such a state, and no run reaches one. Safe: the machine stops. -/
  | stackPointerOutOfRange
deriving DecidableEq, Repr

/-- Why the model refuses. -/
inductive Refusal where
  /-- Raised only by an arm of `exec` whose instruction has no meaning yet. Safe: the machine stops. -/
  | notModelled (mnemonic : String)
  /-- Raised by the memory-load interface, by no instruction: the image does not fit and is refused whole (R241).
  Safe: nothing is stored and the session does not start. -/
  | imageDoesNotFit
  /-- Raised by the input interface, by no instruction: a key event above 15 is outside the contract (R239).
  Safe: the turn is not taken up. -/
  | keyEventOutOfContract
deriving DecidableEq, Repr

/-- Every pixel 0, at the machine's size. -/
def blankDisplay (p : Params) : Display := List.replicate p.dispH (List.replicate p.dispW false)

/-- The machine right after reset, as a function of its parameters (R41, R271). -/
def State.resetWith (p : Params) : State where
  cfg := p
  v := Vector.replicate 16 0
  i := 0
  pc := BitVec.ofNat 16 p.loadBase
  sp := 0
  stack := Vector.replicate 16 0
  dt := 0
  st := 0
  mem := []
  disp := blankDisplay p
  err := none
  script := []
  turnNo := 0

/-- The machine right after reset, with the default parameters of R5 (notes/assumptions/2.md). -/
def State.reset : State := State.resetWith Config.defaults

end Sys2Proof.Machine
end

