-- ==== Sys2Proof/Machine/Ops.lean ====
section
/-! DEFINITION. The named operations over memory, registers, stack, display, timers and host turns, and the one
operation that raises an error (R229). -/

namespace Sys2Proof.Machine

/-! ## Memory -/

/-- The 80 font bytes, glyph `d` at offset `5 * d` (R71). -/
def fontTable : List Byte :=
  [0xF0, 0x90, 0x90, 0x90, 0xF0,  0x20, 0x60, 0x20, 0x20, 0x70,
   0xF0, 0x10, 0xF0, 0x80, 0xF0,  0xF0, 0x10, 0xF0, 0x10, 0xF0,
   0x90, 0x90, 0xF0, 0x10, 0x10,  0xF0, 0x80, 0xF0, 0x10, 0xF0,
   0xF0, 0x80, 0xF0, 0x90, 0xF0,  0xF0, 0x10, 0x20, 0x40, 0x40] ++
  [0xF0, 0x90, 0xF0, 0x90, 0xF0,  0xF0, 0x90, 0xF0, 0x10, 0xF0,
   0xF0, 0x90, 0xF0, 0x90, 0x90,  0xE0, 0x90, 0xE0, 0x90, 0xE0,
   0xF0, 0x80, 0x80, 0x80, 0xF0,  0xE0, 0x90, 0x90, 0x90, 0xE0,
   0xF0, 0x80, 0xF0, 0x80, 0xF0,  0xF0, 0x80, 0xF0, 0x80, 0x80]

/-- What an unlisted address reads as: its content after reset, the font table at FONT_BASE and 0x00 elsewhere
(R41, R71; notes/assumptions/3.md). -/
def resetByte (p : Params) (a : Nat) : Byte :=
  if p.fontBase ≤ a then fontTable.getD (a - p.fontBase) 0x00 else 0x00

/-- The byte listed for an address, if one is. -/
def Memory.find : Memory → Nat → Option Byte
  | [], _ => none
  | (k, b) :: m, a => if k = a then some b else Memory.find m a

/-- Read one byte of `Mem` (R7): the listed byte, else the reset content. -/
def Memory.read (p : Params) (m : Memory) (a : Nat) : Byte := (Memory.find m a).getD (resetByte p a)

/-- Replace the entry of an address, or take it out, in rising order. -/
def Memory.put : Memory → Nat → Option Byte → Memory
  | [], a, some b => [(a, b)]
  | [], _, none => []
  | (k, c) :: m, a, e =>
    if k < a then (k, c) :: Memory.put m a e
    else
      match e with
      | some b => if k = a then (a, b) :: m else (a, b) :: (k, c) :: m
      | none => if k = a then m else (k, c) :: m

/-- Write one byte of `Mem`; a byte equal to the reset content leaves no entry. -/
def Memory.write (p : Params) (m : Memory) (a : Nat) (b : Byte) : Memory :=
  Memory.put m a (if b = resetByte p a then none else some b)

/-- `Mem[a + k] <- bytes[k]`, in order (R68). -/
def Memory.writeList (p : Params) (m : Memory) (a : Nat) : List Byte → Memory
  | [] => m
  | b :: bs => Memory.writeList p (Memory.write p m a b) (a + 1) bs

/-- The `n` bytes from `a` on, lowest address first (R8). -/
def Memory.readList (p : Params) (m : Memory) (a : Nat) : Nat → List Byte
  | 0 => []
  | n + 1 => Memory.read p m a :: Memory.readList p m (a + 1) n

/-- The canonical form: addresses strictly rising and inside the memory, no entry equal to the reset content. -/
abbrev Memory.wf (p : Params) (m : Memory) : Prop :=
  m.Pairwise (fun c d => c.1 < d.1) ∧ ∀ c ∈ m, c.1 < p.memSize ∧ c.2 ≠ resetByte p c.1

/-- `Mem[a]` of a state. -/
def State.byteAt (s : State) (a : Nat) : Byte := Memory.read s.cfg s.mem a

/-- `MemRead(addr, n)`: the range check, then the bytes (R8, R67). -/
def State.memRead (s : State) (addr n : Nat) : Except Raised (List Byte) :=
  if n = 0 then .ok []
  else if s.cfg.memSize ≤ addr + n - 1 then .error ⟨.memoryRange, max addr s.cfg.memSize⟩
  else .ok (Memory.readList s.cfg s.mem addr n)

/-- `MemWrite(addr, n, bytes)`: range, then reserved region, then the stores (R8, R68). -/
def State.memWrite (s : State) (addr : Nat) (bytes : List Byte) : Except Raised State :=
  if s.cfg.memSize ≤ addr + bytes.length - 1 then .error ⟨.memoryRange, max addr s.cfg.memSize⟩
  else if addr < s.cfg.loadBase then .error ⟨.reservedWrite, addr⟩
  else .ok { s with mem := Memory.writeList s.cfg s.mem addr bytes }

/-- `Fetch(PC)`: alignment, then range without wrap, then the word (R63, R65). -/
def State.fetch (s : State) : Except Raised Word :=
  if s.pc.toNat % 2 ≠ s.cfg.loadBase % 2 then .error ⟨.pcMisaligned, s.pc.toNat⟩
  else if s.cfg.memSize ≤ s.pc.toNat + 1 then
    .error ⟨.memoryRange, if s.cfg.memSize ≤ s.pc.toNat then s.pc.toNat else s.pc.toNat + 1⟩
  else .ok (wordOfBytes (s.byteAt s.pc.toNat) (s.byteAt (s.pc.toNat + 1)))

/-! ## Registers -/

/-- `V[x]` (R7, R20). -/
def State.reg (s : State) (x : RegIdx) : Byte := s.v[x.toNat]'x.isLt

/-- `V[x] <- b` (R7). -/
def State.setReg (s : State) (x : RegIdx) (b : Byte) : State := { s with v := s.v.set x.toNat b x.isLt }

/-- The index of VF (R22). -/
abbrev vf : RegIdx := 0xF#4

/-- Write the flag: a write of `V[15]`, 0x00 or 0x01 (R22, R23). -/
def State.setFlag (s : State) (f : Bool) : State := s.setReg vf (if f then 0x01 else 0x00)

/-- `V[X] <- result`, then `V[15] <- flag`: the flag last (R24, R151, D8). -/
def State.setRegFlag (s : State) (x : RegIdx) (b : Byte) (f : Bool) : State := (s.setReg x b).setFlag f

/-- `V[k] <- b` for the listed bytes, from register `k` up (R207). -/
def State.setRegs (s : State) (k : Nat) : List Byte → State
  | [] => s
  | b :: bs => State.setRegs (s.setReg (BitVec.ofNat 4 k) b) (k + 1) bs

/-- `I <- a` (R28). -/
def State.setI (s : State) (a : Word) : State := { s with i := a }

/-- `DT <- b` (R33). -/
def State.setDt (s : State) (b : Byte) : State := { s with dt := b }

/-- `ST <- b` (R34). -/
def State.setSt (s : State) (b : Byte) : State := { s with st := b }

/-- `Disp` replaced (R38). -/
def State.setDisp (s : State) (d : Display) : State := { s with disp := d }

/-! ## Program counter -/

/-- `pc <- target` (R7). -/
def State.setPc (s : State) (a : Word) : State := { s with pc := a }

/-- The default advance, `pc <- (PC + 2) mod 65536` (R26). -/
def State.advance (s : State) : State := s.setPc (s.pc + 2)

/-- The skip family's advance: 4 if the condition holds, else 2 (R26). -/
def State.skipIf (s : State) (c : Bool) : State := s.setPc (s.pc + if c then 4 else 2)

/-! ## Call stack -/

/-- `Push(a)` (R32). -/
def State.push (s : State) (a : Word) : Except Raised State :=
  if h : s.sp.toNat < 16 then .ok { s with stack := s.stack.set s.sp.toNat a h, sp := s.sp + 1 }
  else .error ⟨.stackOverflow, 16⟩

/-- `Pop()`: the state with SP lowered, and the popped entry, which stays in the array (R32). An SP above 16, which
no run reaches, is stopped before this is called (`guardSp`). -/
def State.pop (s : State) : Except Raised (State × Word) :=
  if s.sp = 0 then .error ⟨.stackUnderflow, 0⟩
  else .ok ({ s with sp := s.sp - 1 }, s.stack[(s.sp - 1).toNat]?.getD 0)

/-! ## Raising an error, and ending a cycle -/

/-- Error entry: ERR takes the record and nothing else changes (R9, R229). -/
def State.raise (s : State) (w : Option Word) (e : Raised) : State :=
  { s with err := some ⟨e.code, s.pc, w, e.info⟩ }

/-- How every meaning ends: with its writes, or with an error raised in the state the cycle began in, the record
holding the instruction's own word (R9, R229). -/
def State.conclude (s : State) (i : Instr) : Except Raised State → Host.Outcome State Fault Refusal
  | .ok t => .next t
  | .error e => .next (s.raise (some (encode i)) e)

/-- The stop of a state whose SP holds a value that is never produced (R30, notes/assumptions/9.md). -/
def State.guardSp (s : State) (o : Host.Outcome State Fault Refusal) : Host.Outcome State Fault Refusal :=
  if 16 < s.sp.toNat then .fault .stackPointerOutOfRange else o

/-- The code of an error (R220). -/
def ErrorCode.number : ErrorCode → Nat
  | .unimplementedOpcode => 1
  | .stackOverflow => 2
  | .stackUnderflow => 3
  | .memoryRange => 4
  | .reservedWrite => 5
  | .indexRange => 6
  | .pcMisaligned => 7

/-! ## Timers -/

/-- Minus one, floored at 0 (R234). -/
def countDown (b : Byte) : Byte := if b = 0 then 0 else b - 1

/-- One tick: both timers, nothing else (R234). -/
def State.tick (s : State) : State := { s with dt := countDown s.dt, st := countDown s.st }

/-! ## Host turns (notes/assumptions/4.md) -/

/-- Does either timer still count? A tick in another state changes nothing (R234). -/
def State.timersRun (s : State) : Bool := s.dt != 0 || s.st != 0

/-- The free turn: the host's move and inputs under no law (R235, R237, R238, R240). With both timers at 0 a tick
changes nothing, so it is not shown as a turn. -/
def State.freeTurn (s : State) : HostTurn where
  tick := s.timersRun && Config.freeTick s.turnNo
  keys := Config.freeKeys s.turnNo
  keyEvent := Config.freeKeyEvent s.turnNo
  rnd := Config.freeRnd s.turnNo

/-- The turn about to be taken: the first fixed one, else the free one. -/
def State.turn (s : State) : HostTurn :=
  match s.script with
  | t :: _ => t
  | [] => s.freeTurn

/-- The turn has been taken. -/
def State.endTurn (s : State) : State := { s with script := s.script.tail, turnNo := s.turnNo + 1 }

/-- What a core step does to the host's side: a next state ends the turn. -/
def endTurnOf : Host.Outcome State Fault Refusal → Host.Outcome State Fault Refusal
  | .next t => .next t.endTurn
  | .fault f => .fault f
  | .refused r => .refused r

/-! ## Display -/

/-- `Disp[y][x]` (R7); false outside the display. -/
def Display.pixel (d : Display) (x y : Nat) : Bool := (d.getD y []).getD x false

/-- `Disp[y][x] <- Disp[y][x] ^ 1` (R182). -/
def Display.toggle (d : Display) (x y : Nat) : Display := d.modify y fun row => row.modify x not

/-- The display has its size: DISPLAY_H rows of DISPLAY_W pixels (R37). -/
abbrev Display.wf (p : Params) (d : Display) : Prop :=
  d.length = p.dispH ∧ ∀ row ∈ d, row.length = p.dispW

end Sys2Proof.Machine
end

