-- ==== Sys2Proof/Machine/Operands.lean ====
section
/-! DEFINITION. The operand forms (R97): immediates are used as they stand, an address field is zero-extended, and
the operands below are the ones that need more than a register read. -/

namespace Sys2Proof.Machine

/-- `zext_16(NNN)` (R97). -/
def absAddr (nnn : Addr12) : Word := nnn.setWidth 16

/-- `zext_16(V[X])` (R139, R202). -/
def zext16 (b : Byte) : Word := b.setWidth 16

/-- The operand of a shift: Vy if SHIFT_USES_Y, else Vx (R160, R162, D7). -/
def State.shiftSource (s : State) (x y : RegIdx) : Byte := if s.cfg.shiftUsesY then s.reg y else s.reg x

/-- A register value used as an index into 16 things, checked and never masked (R226, D17). -/
def checkedIndex (v : Byte) : Except Raised (BitVec 4) :=
  if 15 < v.toNat then .error ⟨.indexRange, v.toNat⟩ else .ok (v.setWidth 4)

/-- `[V[0], V[1], ..., V[X]]` (R206). -/
def State.blockRegs (s : State) (x : RegIdx) : List Byte :=
  (List.range (x.toNat + 1)).map fun k => s.reg (BitVec.ofNat 4 k)

/-- `keys[k]`: is key `k` down in this cycle (R237)? -/
def State.keyDown (s : State) (k : Key) : Bool := s.turn.keys.getLsbD k.toNat

/-- `key_event` of this cycle (R238). -/
def State.keyEvent (s : State) : Option Key := s.turn.keyEvent

/-- `rnd` of this cycle (R240). -/
def State.rnd (s : State) : Byte := s.turn.rnd

/-- The address of a glyph, `FONT_BASE + 5 * d` (R203). -/
def State.glyphAddr (s : State) (d : BitVec 4) : Word := BitVec.ofNat 16 (s.cfg.fontBase + 5 * d.toNat)

end Sys2Proof.Machine
end

