-- ==== Sys2Proof/Machine/Alu.lean ====
section
/-! DEFINITION. Register loads, arithmetic, logic, shifts and random (41_alu.md). Every meaning reads its sources in
the state the cycle began in (R151) and advances PC by 2. -/

namespace Sys2Proof.Machine

/-- A result without a flag (R151). -/
def State.aluResult (s : State) (x : RegIdx) (r : Byte) : Host.Outcome State Fault Refusal :=
  .next (s.setReg x r).advance

/-- A result and its flag, the flag last (R151). -/
def State.aluFlagged (s : State) (x : RegIdx) (r : Byte) (f : Bool) : Host.Outcome State Fault Refusal :=
  .next (s.setRegFlag x r f).advance

/-- `LD Vx, byte` (R152). -/
def execLdByte (x : RegIdx) (nn : Byte) (s : State) : Host.Outcome State Fault Refusal := s.aluResult x nn

/-- `ADD Vx, byte`: modulo 256, no flag (R153). -/
def execAddByte (x : RegIdx) (nn : Byte) (s : State) : Host.Outcome State Fault Refusal :=
  s.aluResult x (s.reg x + nn)

/-- `LD Vx, Vy` (R154). -/
def execLdReg (x y : RegIdx) (s : State) : Host.Outcome State Fault Refusal := s.aluResult x (s.reg y)

/-- `OR Vx, Vy` (R155). -/
def execOrReg (x y : RegIdx) (s : State) : Host.Outcome State Fault Refusal := s.aluResult x (s.reg x ||| s.reg y)

/-- `AND Vx, Vy` (R156). -/
def execAndReg (x y : RegIdx) (s : State) : Host.Outcome State Fault Refusal := s.aluResult x (s.reg x &&& s.reg y)

/-- `XOR Vx, Vy` (R157). -/
def execXorReg (x y : RegIdx) (s : State) : Host.Outcome State Fault Refusal := s.aluResult x (s.reg x ^^^ s.reg y)

/-- `ADD Vx, Vy` (R158). -/
def execAddReg (x y : RegIdx) (s : State) : Host.Outcome State Fault Refusal :=
  s.aluFlagged x (s.reg x + s.reg y) (carryFlag (s.reg x) (s.reg y))

/-- `SUB Vx, Vy`: Vx - Vy (R159). -/
def execSubReg (x y : RegIdx) (s : State) : Host.Outcome State Fault Refusal :=
  s.aluFlagged x (s.reg x - s.reg y) (noBorrowFlag (s.reg x) (s.reg y))

/-- `SHR Vx {, Vy}` (R160). -/
def execShr (x y : RegIdx) (s : State) : Host.Outcome State Fault Refusal :=
  s.aluFlagged x (s.shiftSource x y >>> 1) (droppedLow (s.shiftSource x y))

/-- `SUBN Vx, Vy`: Vy - Vx (R161). -/
def execSubn (x y : RegIdx) (s : State) : Host.Outcome State Fault Refusal :=
  s.aluFlagged x (s.reg y - s.reg x) (noBorrowFlag (s.reg y) (s.reg x))

/-- `SHL Vx {, Vy}` (R162). -/
def execShl (x y : RegIdx) (s : State) : Host.Outcome State Fault Refusal :=
  s.aluFlagged x (s.shiftSource x y <<< 1) (droppedHigh (s.shiftSource x y))

/-- `RND Vx, byte`: the host's byte AND the immediate (R163, R240). -/
def execRnd (x : RegIdx) (nn : Byte) (s : State) : Host.Outcome State Fault Refusal := s.aluResult x (s.rnd &&& nn)

end Sys2Proof.Machine
end

