-- ==== Sys2Proof/Machine/Control.lean ====
section
/-! DEFINITION. Control transfer (40_control_flow.md). -/

namespace Sys2Proof.Machine

/-- `SYS addr`: always raises, with its own word (R107, R131). -/
def execSys (nnn : Addr12) (s : State) : Host.Outcome State Fault Refusal :=
  s.conclude (.sys nnn) (.error ⟨.unimplementedOpcode, (encode (.sys nnn)).toNat⟩)

/-- `RET`: PC takes the popped entry as it stands (R132). -/
def execRet (s : State) : Host.Outcome State Fault Refusal :=
  s.guardSp (s.conclude .ret (s.pop.map fun r => r.1.setPc r.2))

/-- `JP addr` (R133). -/
def execJp (nnn : Addr12) (s : State) : Host.Outcome State Fault Refusal := .next (s.setPc (absAddr nnn))

/-- `CALL addr`: pushes the address of the next instruction (R134). -/
def execCall (nnn : Addr12) (s : State) : Host.Outcome State Fault Refusal :=
  s.guardSp (s.conclude (.call nnn) ((s.push (s.pc + 2)).map fun t => t.setPc (absAddr nnn)))

/-- `SE Vx, byte` (R135). -/
def execSeByte (x : RegIdx) (nn : Byte) (s : State) : Host.Outcome State Fault Refusal :=
  .next (s.skipIf (s.reg x == nn))

/-- `SNE Vx, byte` (R136). -/
def execSneByte (x : RegIdx) (nn : Byte) (s : State) : Host.Outcome State Fault Refusal :=
  .next (s.skipIf (s.reg x != nn))

/-- `SE Vx, Vy`; N is ignored (R108, R137). -/
def execSeReg (x y : RegIdx) (s : State) : Host.Outcome State Fault Refusal :=
  .next (s.skipIf (s.reg x == s.reg y))

/-- `SNE Vx, Vy`; N is ignored (R108, R138). -/
def execSneReg (x y : RegIdx) (s : State) : Host.Outcome State Fault Refusal :=
  .next (s.skipIf (s.reg x != s.reg y))

/-- `JP V0, addr` (R139). -/
def execJpV0 (nnn : Addr12) (s : State) : Host.Outcome State Fault Refusal :=
  .next (s.setPc (absAddr nnn + zext16 (s.reg 0)))

end Sys2Proof.Machine
end

