-- ==== Sys2Proof/Machine/Keypad.lean ====
section
/-! DEFINITION. Keypad and timer instructions (43_keypad_timers.md). -/

namespace Sys2Proof.Machine

/-- `SKP Vx`: skip if the key is down (R191). -/
def execSkp (x : RegIdx) (s : State) : Host.Outcome State Fault Refusal :=
  s.conclude (.skp x) ((checkedIndex (s.reg x)).map fun k => s.skipIf (s.keyDown k))

/-- `SKNP Vx`: skip if the key is not down (R192). -/
def execSknp (x : RegIdx) (s : State) : Host.Outcome State Fault Refusal :=
  s.conclude (.sknp x) ((checkedIndex (s.reg x)).map fun k => s.skipIf (!s.keyDown k))

/-- `LD Vx, DT` (R193). -/
def execLdVxDt (x : RegIdx) (s : State) : Host.Outcome State Fault Refusal := .next (s.setReg x s.dt).advance

/-- What a key wait leaves: the state itself without an event (blocked), else the key in Vx (R194). -/
def State.keyWait (s : State) (x : RegIdx) : Option Key → State
  | none => s
  | some k => (s.setReg x (k.setWidth 8)).advance

/-- `LD Vx, K` (R194). -/
def execLdVxK (x : RegIdx) (s : State) : Host.Outcome State Fault Refusal := .next (s.keyWait x s.keyEvent)

/-- `LD DT, Vx` (R195). -/
def execLdDtVx (x : RegIdx) (s : State) : Host.Outcome State Fault Refusal := .next (s.setDt (s.reg x)).advance

/-- `LD ST, Vx` (R196). -/
def execLdStVx (x : RegIdx) (s : State) : Host.Outcome State Fault Refusal := .next (s.setSt (s.reg x)).advance

end Sys2Proof.Machine
end

