-- ==== Sys2Proof/Machine/MemIndex.lean ====
section
/-! DEFINITION. Address register, font lookup, BCD and register blocks (44_memory_index.md). -/

namespace Sys2Proof.Machine

/-- The BCD converter by its defining property: hundreds, tens, ones (R204). -/
def bcdDigits (v : Byte) : List Byte :=
  [BitVec.ofNat 8 (v.toNat / 100), BitVec.ofNat 8 (v.toNat / 10 % 10), BitVec.ofNat 8 (v.toNat % 10)]

/-- One digit field of double-dabble: add 3 to the four bits at `lo` if they exceed 4 (R204). -/
def dabbleField (lo : Nat) (t : BitVec 24) : BitVec 24 :=
  if 4 < (t.extractLsb' lo 4).toNat then t + (BitVec.ofNat 24 3 <<< lo) else t

/-- One iteration: the three fields, then the shift (R204). -/
def dabbleStep (t : BitVec 24) : BitVec 24 := dabbleField 8 (dabbleField 12 (dabbleField 16 t)) <<< 1

/-- `n` iterations of double-dabble (R204). -/
def dabble : Nat → BitVec 24 → BitVec 24
  | 0, t => t
  | n + 1, t => dabble n (dabbleStep t)

/-- The converter by the source's algorithm: eight iterations, then the three digit fields (R204). -/
def doubleDabble (v : Byte) : List Byte :=
  let t := dabble 8 (v.setWidth 24)
  [(t.extractLsb' 16 4).setWidth 8, (t.extractLsb' 12 4).setWidth 8, (t.extractLsb' 8 4).setWidth 8]

/-- `LD I, addr` (R201). -/
def execLdI (nnn : Addr12) (s : State) : Host.Outcome State Fault Refusal := .next (s.setI (absAddr nnn)).advance

/-- `ADD I, Vx`: modulo 65536, no flag (R202). -/
def execAddI (x : RegIdx) (s : State) : Host.Outcome State Fault Refusal :=
  .next (s.setI (s.i + zext16 (s.reg x))).advance

/-- `LD F, Vx`: an address only, no memory is read (R203). -/
def execLdF (x : RegIdx) (s : State) : Host.Outcome State Fault Refusal :=
  s.conclude (.ldF x) ((checkedIndex (s.reg x)).map fun d => (s.setI (s.glyphAddr d)).advance)

/-- `LD B, Vx` (R205). -/
def execLdB (x : RegIdx) (s : State) : Host.Outcome State Fault Refusal :=
  s.conclude (.ldB x) ((s.memWrite s.i.toNat (bcdDigits (s.reg x))).map fun t => t.advance)

/-- `LD [I], Vx` (R206). -/
def execStoreBlock (x : RegIdx) (s : State) : Host.Outcome State Fault Refusal :=
  s.conclude (.storeBlock x) ((s.memWrite s.i.toNat (s.blockRegs x)).map fun t => t.advance)

/-- `LD Vx, [I]` (R207). -/
def execLoadBlock (x : RegIdx) (s : State) : Host.Outcome State Fault Refusal :=
  s.conclude (.loadBlock x) ((s.memRead s.i.toNat (x.toNat + 1)).map fun bs => (s.setRegs 0 bs).advance)

end Sys2Proof.Machine
end

