-- ==== Sys2Proof/Machine/Screen.lean ====
section
/-! DEFINITION. The framebuffer blitter (42_display.md). -/

namespace Sys2Proof.Machine

/-- The columns of a row byte's set bits, bit 7 at column 0 (R180). -/
def rowDots (b : Byte) : List Nat := (List.range 8).filter fun c => b.getLsbD (7 - c)

/-- The (column, row) offsets of a sprite's set bits, in the loop order of R182; the first byte is row `r`. -/
def spriteDots (r : Nat) : List Byte → List (Nat × Nat)
  | [] => []
  | b :: bs => (rowDots b).map (fun c => (c, r)) ++ spriteDots (r + 1) bs

/-- The body of the loop of R182 for one set bit: collision, then XOR, at the wrapped coordinates. -/
def blitDot (p : Params) (x0 y0 : Nat) (acc : Display × Bool) (dot : Nat × Nat) : Display × Bool :=
  let px := (x0 + dot.1) % p.dispW
  let py := (y0 + dot.2) % p.dispH
  (Display.toggle acc.1 px py, acc.2 || Display.pixel acc.1 px py)

/-- The whole loop of R182: the display after, and whether any pixel went from 1 to 0. -/
def blit (p : Params) (d : Display) (x0 y0 : Nat) (rows : List Byte) : Display × Bool :=
  (spriteDots 0 rows).foldl (blitDot p x0 y0) (d, false)

/-- The sprite drawn, and VF written last (R182). -/
def State.drawSprite (s : State) (x y : RegIdx) (rows : List Byte) : State :=
  let r := blit s.cfg s.disp ((s.reg x).toNat % s.cfg.dispW) ((s.reg y).toNat % s.cfg.dispH) rows
  ((s.setDisp r.1).setFlag r.2).advance

/-- `CLS` (R181). -/
def execCls (s : State) : Host.Outcome State Fault Refusal := .next (s.setDisp (blankDisplay s.cfg)).advance

/-- `DRW Vx, Vy, nibble` (R182). -/
def execDrw (x y : RegIdx) (n : Nibble) (s : State) : Host.Outcome State Fault Refusal :=
  s.conclude (.drw x y n) ((s.memRead s.i.toNat n.toNat).map fun rows => s.drawSprite x y rows)

end Sys2Proof.Machine
end

