-- ==== Sys2Proof/Machine/Cycle.lean ====
section
/-! DEFINITION. One core cycle (R90) and one turn of the machine (R10), which `step` calls. -/

namespace Sys2Proof.Machine

/-- Dispatch of a fetched word: the selected instruction's rule, or `UnimplementedOpcode(w)` (R90 (4), (5), R106). -/
def State.executeWord (s : State) (w : Word) : Host.Outcome State Fault Refusal :=
  match decodeWord w with
  | .ok i => exec i s
  | .error _ => .next (s.raise (some w) ⟨.unimplementedOpcode, w.toNat⟩)

/-- Fetch, decode, execute (R90); a fetch that fails records no word (R220). -/
def State.coreCycle (s : State) : Host.Outcome State Fault Refusal :=
  match s.fetch with
  | .ok w => s.executeWord w
  | .error e => .next (s.raise none e)

/-- The core's turn: a halted core has no step (R91), else one cycle, after which the turn is over. -/
def State.coreTurn (s : State) : Host.Outcome State Fault Refusal :=
  match s.err with
  | some e => .fault (.halted e)
  | none => endTurnOf s.coreCycle

/-- One step of whichever agent moves next: the clock host's tick, in any state of the core (R10, R235), or the
core's turn. -/
def State.takeTurn (s : State) : Host.Outcome State Fault Refusal :=
  if s.turn.tick then .next s.tick.endTurn else s.coreTurn

/-- Store bytes where the memory has them, past no check but the memory's end: the host's write, for `withFetchWord`
and the loader. -/
def State.pokeList (s : State) (a : Nat) (bytes : List Byte) : State :=
  { s with mem := Memory.writeList s.cfg s.mem a (bytes.take (s.cfg.memSize - a)) }

/-- A state whose next turn is the core's and whose core is not halted; the inputs stay what they were. -/
def State.coreNext (s : State) : State :=
  if s.turn.tick then { s with err := none, script := { s.turn with tick := false } :: s.script.tail }
  else { s with err := none }

end Sys2Proof.Machine
end

