-- ==== Sys2Proof/Machine/Step.lean ====
section
/-! DEFINITION. The step of the machine, and the host's way of placing one instruction. -/

namespace Sys2Proof.Machine

/-- One step: a tick or a core cycle (R10). -/
def step (s : State) : Host.Outcome State Fault Refusal := s.takeTurn

/-- `s` with the instruction whose low `nbits` bits are those of `w` stored where `step` fetches next, high byte
first (R63), and the core's turn next. -/
def State.withFetchWord (s : State) (nbits w : Nat) : State :=
  (s.pokeList s.pc.toNat (bytesOfWord (BitVec.ofNat 16 (w % 2 ^ nbits)))).coreNext

end Sys2Proof.Machine
end

