-- ==== Sys2Proof/Machine/HostInterface.lean ====
section
/-! DEFINITION. What the host can do to the machine besides ticks and inputs, and what it can see (60_exceptions.md
section 3). No step calls these. -/

namespace Sys2Proof.Machine

/-- The memory-load interface: the image at LOAD_BASE, or refused whole if it does not fit (R241, D29). -/
def State.load (image : List Byte) (s : State) : Host.Outcome State Fault Refusal :=
  if s.cfg.loadBase + image.length ≤ s.cfg.memSize then .next (s.pokeList s.cfg.loadBase image)
  else .refused .imageDoesNotFit

/-- The input, entropy and clock interfaces: one more fixed turn after those already fixed; a key event above 15 is
outside the contract and is refused rather than stored (R234, R237 to R240). -/
def State.offer (tick : Bool) (keys : BitVec 16) (event : Option Byte) (rnd : Byte) (s : State) :
    Host.Outcome State Fault Refusal :=
  match event with
  | none => .next { s with script := s.script ++ [⟨tick, keys, none, rnd⟩] }
  | some k =>
    if 15 < k.toNat then .refused .keyEventOutOfContract
    else .next { s with script := s.script ++ [⟨tick, keys, some (k.setWidth 4), rnd⟩] }

/-- Does the instruction present a snapshot when it completes (R242)? -/
def presentsDisplay : Instr → Bool
  | .cls => true
  | .drw _ _ _ => true
  | _ => false

/-- The output interface: the bitmap presented by the cycle that ran `i` and left `t`; a cycle that raised presents
nothing (R242). -/
def outputOf (i : Instr) (t : State) : Option Display :=
  if presentsDisplay i && t.err.isNone then some t.disp else none

/-- The error interface: the record as the host reads it, `(code, PC, w, info)` (R220, R243). -/
def State.errorReport (s : State) : Option (Nat × Nat × Option Nat × Nat) :=
  s.err.map fun e => (e.code.number, e.pc.toNat, e.word.map BitVec.toNat, e.info)

/-- Reset as the host's input: the Machine State anew, whatever it was (R270), the host's own turns untouched. -/
def State.restart (s : State) : State :=
  { State.resetWith s.cfg with script := s.script, turnNo := s.turnNo }

end Sys2Proof.Machine
end

