-- ==== Sys2Proof/Safety.lean ====
section
/-! DEFINITION. What claims speak of: the invariant, the parts of the state an instruction may change, and which
instructions may change which general register. -/

namespace Sys2Proof.Machine

/-- The invariant of every run: legal parameters (R5), SP at most 16 (R30), memory in canonical form with nothing
listed in the reserved region (R70, R71), and a display of its size (R37). -/
abbrev State.Inv (s : State) : Prop :=
  s.cfg.WellFormed ∧ s.sp.toNat ≤ 16 ∧ Memory.wf s.cfg s.mem ∧ (∀ c ∈ s.mem, s.cfg.loadBase ≤ c.1) ∧
    Display.wf s.cfg s.disp

/-- The parts of the state, for frames. -/
inductive Part where
  /-- V[0] .. V[15]. -/
  | regs
  /-- The address register. -/
  | i
  /-- The program counter. -/
  | pc
  /-- The stack pointer. -/
  | sp
  /-- The sixteen stack entries. -/
  | stack
  /-- The delay timer. -/
  | dt
  /-- The sound timer. -/
  | st
  /-- Every byte of memory. -/
  | mem
  /-- Every pixel. -/
  | disp
  /-- The error latch. -/
  | err
  /-- The parameters. -/
  | cfg
  /-- The host's turns. -/
  | host
deriving DecidableEq, Repr

/-- Two states agree on a part; on memory, byte by byte. -/
def Part.Same : Part → State → State → Prop
  | .regs, s, t => ∀ r, t.reg r = s.reg r
  | .i, s, t => t.i = s.i
  | .pc, s, t => t.pc = s.pc
  | .sp, s, t => t.sp = s.sp
  | .stack, s, t => t.stack = s.stack
  | .dt, s, t => t.dt = s.dt
  | .st, s, t => t.st = s.st
  | .mem, s, t => ∀ a, t.byteAt a = s.byteAt a
  | .disp, s, t => t.disp = s.disp
  | .err, s, t => t.err = s.err
  | .cfg, s, t => t.cfg = s.cfg
  | .host, s, t => t.script = s.script ∧ t.turnNo = s.turnNo

/-- The frame: from `s` to `t`, every part but the listed ones is unchanged. -/
def OnlyChanges (ps : List Part) (s t : State) : Prop := ∀ p, p ∉ ps → p.Same s t

/-- An error is latched and nothing else has changed (R229): the record names the error, the PC, the word, the info. -/
def Raises (s t : State) (code : ErrorCode) (word : Option Word) (info : Nat) : Prop :=
  OnlyChanges [.err] s t ∧ t.err = some ⟨code, s.pc, word, info⟩

/-- The default advance of PC (R26). -/
def Advances (s t : State) : Prop := t.pc.toNat = (s.pc.toNat + 2) % 65536

/-- An outcome that completes by moving PC alone, to `target`. -/
def MovesPc (s : State) (o : Host.Outcome State Fault Refusal) (target : Nat) : Prop :=
  ∃ t, o = .next t ∧ t.pc.toNat = target ∧ OnlyChanges [.pc] s t

/-- An outcome that completes by writing the number `v` to register `x` and advancing PC; every other register, and
every other part of the state, is unchanged. -/
def ResultIn (s : State) (o : Host.Outcome State Fault Refusal) (x : RegIdx) (v : Nat) : Prop :=
  ∃ t, o = .next t ∧ (∀ r, (t.reg r).toNat = if r = x then v else (s.reg r).toNat) ∧ Advances s t ∧
    OnlyChanges [.regs, .pc] s t

/-- An outcome that completes by writing the number `v` to register `x`, then the number `flag` to VF, and advancing
PC; with `x = 15` VF ends as the flag (R24, R151). -/
def FlaggedResultIn (s : State) (o : Host.Outcome State Fault Refusal) (x : RegIdx) (v flag : Nat) : Prop :=
  ∃ t, o = .next t ∧
    (∀ r, (t.reg r).toNat = if r = vf then flag else if r = x then v else (s.reg r).toNat) ∧ Advances s t ∧
    OnlyChanges [.regs, .pc] s t

/-- An outcome that is an error entry (R229). -/
def RaisesIn (s : State) (o : Host.Outcome State Fault Refusal) (i : Instr) (code : ErrorCode) (info : Nat) : Prop :=
  ∃ t, o = .next t ∧ Raises s t code (some (encode i)) info

/-- Every byte of memory outside the `n` bytes from `a` is unchanged. -/
def SameOutside (a n : Nat) (s t : State) : Prop := ∀ k, k < a ∨ a + n ≤ k → t.byteAt k = s.byteAt k

/-- The general registers an instruction may write (R21, R23). -/
def mayWriteReg : Instr → RegIdx → Prop
  | .ldByte x _, r | .addByte x _, r | .ldReg x _, r | .orReg x _, r | .andReg x _, r | .xorReg x _, r => r = x
  | .rnd x _, r | .ldVxDt x, r | .ldVxK x, r => r = x
  | .addReg x _, r | .subReg x _, r | .shr x _, r | .subn x _, r | .shl x _, r => r = x ∨ r = vf
  | .drw _ _ _, r => r = vf
  | .loadBlock x, r => r.toNat ≤ x.toNat
  | .sys _, _ | .cls, _ | .ret, _ | .jp _, _ | .call _, _ | .seByte _ _, _ | .sneByte _ _, _ | .seReg _ _ _, _ => False
  | .sneReg _ _ _, _ | .ldI _, _ | .jpV0 _, _ | .skp _, _ | .sknp _, _ | .ldDtVx _, _ | .ldStVx _, _ => False
  | .addI _, _ | .ldF _, _ | .ldB _, _ | .storeBlock _, _ => False

/-- Does the instruction sample a host input (R237, R238, R240)? -/
def samplesHost : Instr → Bool
  | .rnd _ _ | .skp _ | .sknp _ | .ldVxK _ => true
  | .sys _ | .cls | .ret | .jp _ | .call _ | .seByte _ _ | .sneByte _ _ | .seReg _ _ _ => false
  | .ldByte _ _ | .addByte _ _ | .ldReg _ _ | .orReg _ _ | .andReg _ _ | .xorReg _ _ => false
  | .addReg _ _ | .subReg _ _ | .shr _ _ | .subn _ _ | .shl _ _ | .sneReg _ _ _ => false
  | .ldI _ | .jpV0 _ | .drw _ _ _ | .ldVxDt _ | .ldDtVx _ | .ldStVx _ | .addI _ | .ldF _ => false
  | .ldB _ | .storeBlock _ | .loadBlock _ => false

/-- The state with another host side: other fixed turns, another turn number. -/
def State.withHost (s : State) (script : List HostTurn) (turnNo : Nat) : State :=
  { s with script := script, turnNo := turnNo }

/-- The instruction the core would run in this state: fetched and selected. -/
def State.Runs (s : State) (i : Instr) : Prop := ∃ w, s.fetch = .ok w ∧ decodeWord w = .ok i

/-- The core moves next and is not halted. -/
abbrev State.CoreReady (s : State) : Prop := s.turn.tick = false ∧ s.err = none

/-- Is the sprite bit that lands on pixel (px, py) set, when `n` rows from address I are drawn at (x0, y0)? The
closed form of the loop of R182. -/
def State.spriteBit (s : State) (x0 y0 n px py : Nat) : Bool :=
  let c := (px + s.cfg.dispW - x0) % s.cfg.dispW
  let r := (py + s.cfg.dispH - y0) % s.cfg.dispH
  decide (c < 8) && decide (r < n) && (s.byteAt (s.i.toNat + r)).getLsbD (7 - c)

end Sys2Proof.Machine
end

