-- ==== Sys2Proof/Certificates/Slice0/Obligations.lean ====
section
/-! DEFINITION. The statements for the provers, in the order of spec/'s section files. Each docstring names the rule,
or the spec's own decision, that the statement formalises. -/

open Sys2Proof Sys2Proof.Machine

/-! ## Encoding (30_encoding.md) -/

/-- Every well-formed instruction, with every operand at every value, decodes from its own word. -/
def Obligations.DecodeInvertsEncode : Prop := ∀ i : Instr, i.WellFormed → decodeWord (encode i) = .ok i

/-- Every word that selects an instruction is that instruction's word: no bit of it is dropped, and what is decoded is
well-formed. That 5XYN, 9XYN and the shifts give their own word back is the model's inference, not a rule of the spec
(notes/assumptions/10.md, DEDUCED): Instr keeps the nibbles that R108 says are ignored, as the record of R220 needs. -/
def Obligations.EncodeInvertsDecode : Prop :=
  ∀ (w : Word) (i : Instr), decodeWord w = .ok i → encode i = w ∧ i.WellFormed

/-- R94: the fields as numbers computed from the word, and how they overlap. -/
def Obligations.FieldsAreTheNumberedBits : Prop :=
  (∀ w : Word,
    (fieldsOf w).cls.toNat = w.toNat / 4096 ∧ (fieldsOf w).x.toNat = w.toNat / 256 % 16 ∧
    (fieldsOf w).y.toNat = w.toNat / 16 % 16 ∧ (fieldsOf w).n.toNat = w.toNat % 16 ∧
    (fieldsOf w).nn.toNat = w.toNat % 256 ∧ (fieldsOf w).nnn.toNat = w.toNat % 4096 ∧
    (fieldsOf w).nn = (fieldsOf w).y ++ (fieldsOf w).n ∧
    (fieldsOf w).nnn = (fieldsOf w).x ++ ((fieldsOf w).y ++ (fieldsOf w).n)) ∧
  ∀ first second : Byte, (wordOfBytes first second).toNat / 256 = first.toNat ∧
    (wordOfBytes first second).toNat % 256 = second.toNat

/-- A word selects the instruction whose row it matches: its bits under the row's mask are the row's pattern (the
tables of R100 to R104, whose numbers the spec supplies itself: D4). -/
def Obligations.DecodedWordMatchesItsRow : Prop :=
  ∀ (w : Word) (i : Instr), decodeWord w = .ok i → (opcodeRow i).Selects w

/-- The words with no row are those of classes 8, E and F that 30_encoding.md section 5 lists, and fetching one
latches `UnimplementedOpcode(w)` with nothing else changed (D4, D22). -/
def Obligations.WordsWithoutARowRaise : Prop :=
  (∀ w : Word, (∃ r, decodeWord w = .error r) ↔
    (fieldsOf w).cls = 0x8 ∧ (fieldsOf w).n ∈ [0x8#4, 0x9#4, 0xA#4, 0xB#4, 0xC#4, 0xD#4, 0xF#4] ∨
    (fieldsOf w).cls = 0xE ∧ (fieldsOf w).nn ∉ [0x9E#8, 0xA1#8] ∨
    (fieldsOf w).cls = 0xF ∧
      (fieldsOf w).nn ∉ [0x07#8, 0x0A#8, 0x15#8, 0x18#8, 0x1E#8, 0x29#8, 0x33#8, 0x55#8, 0x65#8]) ∧
  ∀ (s : State) (w : Word) (r : DecodeReject), s.CoreReady → s.fetch = .ok w → decodeWord w = .error r →
    ∃ t, step s = .next t ∧ t.err = some ⟨.unimplementedOpcode, s.pc, some w, w.toNat⟩ ∧
      OnlyChanges [.err, .host] s t

/-- A few words of the vectors T2 and T6 (0xE19E is T6's) decode to the instruction the spec lists beside them, and
a word of T2 with no row to none. -/
def Obligations.ListedWordsDecode : Prop :=
  decodeWord 0x8AB4 = .ok (.addReg 0xA 0xB) ∧ decodeWord 0x00E0 = .ok .cls ∧ decodeWord 0x00EE = .ok .ret ∧
  decodeWord 0x01E0 = .ok (.sys 0x1E0) ∧ decodeWord 0xD125 = .ok (.drw 1 2 5) ∧
  decodeWord 0x5127 = .ok (.seReg 1 2 7) ∧ decodeWord 0xF365 = .ok (.loadBlock 3) ∧
  decodeWord 0xE19E = .ok (.skp 1) ∧ decodeWord 0x8128 = .error (.class8 8)

/-! ## The step (30_encoding.md section 1, 60_exceptions.md section 1) -/

/-- A step runs the decoded instruction: where the two bytes at PC decode to a well-formed `i`, `step` is `exec i`, and
around a next state it ends the host's turn. No instruction is refused. The fetch is R63 and R65; what happens to
`script` and `turnNo` (the head goes, the number counts) is the model's choice, its own fields (notes/assumptions/4.md). -/
def Obligations.StepRunsTheDecodedInstruction : Prop :=
  ∀ (s : State) (i : Instr), s.CoreReady → s.pc.toNat % 2 = s.cfg.loadBase % 2 → s.pc.toNat + 1 < s.cfg.memSize →
    i.WellFormed → decodeWord (wordOfBytes (s.byteAt s.pc.toNat) (s.byteAt (s.pc.toNat + 1))) = .ok i →
    (∀ t, exec i s = .next t → step s = .next { t with script := t.script.tail, turnNo := t.turnNo + 1 }) ∧
    (∀ f, exec i s = .fault f → step s = .fault f) ∧ ∀ r, exec i s ≠ .refused r

/-- Fetch errors come first, alignment before range; the record holds no word, and nothing else changes. That a PC of
the wrong parity is an error is the spec's decision D13. -/
def Obligations.FetchErrorsLatch : Prop :=
  ∀ s : State, s.CoreReady →
    (s.pc.toNat % 2 ≠ s.cfg.loadBase % 2 →
      ∃ t, step s = .next t ∧ t.err = some ⟨.pcMisaligned, s.pc, none, s.pc.toNat⟩ ∧ OnlyChanges [.err, .host] s t) ∧
    (s.pc.toNat % 2 = s.cfg.loadBase % 2 → s.cfg.memSize ≤ s.pc.toNat + 1 →
      ∃ t, step s = .next t ∧ t.err = some ⟨.memoryRange, s.pc, none, max s.pc.toNat s.cfg.memSize⟩ ∧
        OnlyChanges [.err, .host] s t)

/-- A halted core has no step, and no step clears ERR (the spec's decision D22), and a tick changes the timers alone
(D25). That the core's missing step is answered by the fault `halted` is the model's choice (notes/assumptions/6.md). -/
def Obligations.HaltedCoreStaysHalted : Prop :=
  ∀ (s : State) (e : ErrorRecord), s.err = some e →
    (s.turn.tick = false → step s = .fault (.halted e)) ∧
    (s.turn.tick = true → ∃ t, step s = .next t ∧ t.err = some e ∧ OnlyChanges [.dt, .st, .host] s t)

/-- Errors are precise: a step that latches an error changes nothing but ERR (and the host's turn), and the record
holds the PC of the instruction and its word, or no word when the fetch failed (the spec's decision D22). -/
def Obligations.ErrorEntryIsPrecise : Prop :=
  ∀ (s t : State) (e : ErrorRecord), s.err = none → step s = .next t → t.err = some e →
    OnlyChanges [.err, .host] s t ∧ e.pc = s.pc ∧
    ((e.word = none ∧ ∃ r, s.fetch = .error r) ∨ ∃ w, s.fetch = .ok w ∧ e.word = some w)

/-- R234: a tick lowers both timers by one, floored at 0, and changes nothing else of the machine. The clauses on
`script` and `turnNo` are the model's choice, the bookkeeping of its own fields (notes/assumptions/4.md). -/
def Obligations.TickCountsBothTimersDown : Prop :=
  ∀ s : State, s.turn.tick = true →
    ∃ t, step s = .next t ∧ t.dt.toNat = s.dt.toNat - 1 ∧ t.st.toNat = s.st.toNat - 1 ∧
      t.script = s.script.tail ∧ t.turnNo = s.turnNo + 1 ∧ OnlyChanges [.dt, .st, .host] s t

/-! ## Invariants and whole-machine rules -/

/-- Every step keeps the invariant, and never changes the parameters. -/
def Obligations.StepKeepsTheInvariant : Prop :=
  ∀ s t : State, s.Inv → step s = .next t → t.Inv ∧ t.cfg = s.cfg

/-- Reset meets the invariant, for every legal set of parameters; the defaults are legal. -/
def Obligations.ResetMeetsTheInvariant : Prop :=
  (∀ p : Params, p.WellFormed → (State.resetWith p).Inv) ∧ State.reset.Inv

/-- No step changes a byte below LOAD_BASE, so the font never changes (the spec's decisions D12, D16). -/
def Obligations.ReservedRegionIsNeverWritten : Prop :=
  ∀ (s t : State) (a : Nat), step s = .next t → a < s.cfg.loadBase → t.byteAt a = s.byteAt a

/-- A byte of memory changes in a step only inside the window of the `LD B, Vx` or `LD [I], Vx` that the step ran. -/
def Obligations.OnlyTwoInstructionsStore : Prop :=
  ∀ (s t : State) (a : Nat), step s = .next t → t.byteAt a ≠ s.byteAt a →
    (∃ x, s.Runs (.ldB x) ∧ s.i.toNat ≤ a ∧ a < s.i.toNat + 3) ∨
    (∃ x, s.Runs (.storeBlock x) ∧ s.i.toNat ≤ a ∧ a ≤ s.i.toNat + x.toNat)

/-- I changes in a step only by `LD I, addr`, `ADD I, Vx` and `LD F, Vx` (loads and stores leave it: D19). -/
def Obligations.OnlyThreeInstructionsWriteI : Prop :=
  ∀ s t : State, step s = .next t → t.i ≠ s.i →
    (∃ a, s.Runs (.ldI a)) ∨ (∃ x, s.Runs (.addI x)) ∨ ∃ x, s.Runs (.ldF x)

/-- R38: the only writers of the display are `CLS` and `DRW`; the host's turn does not write it. -/
def Obligations.OnlyClsAndDrwWriteTheDisplay : Prop :=
  ∀ s t : State, step s = .next t → t.disp ≠ s.disp → s.Runs .cls ∨ ∃ x y n, s.Runs (.drw x y n)

/-- DT and ST change in a step only by a tick, or by the instruction that writes that timer, to the register's value. -/
def Obligations.TimersChangeByTickOrWrite : Prop :=
  ∀ s t : State, step s = .next t →
    (t.dt ≠ s.dt → s.turn.tick = true ∨ ∃ x, s.Runs (.ldDtVx x) ∧ t.dt = s.reg x) ∧
    (t.st ≠ s.st → s.turn.tick = true ∨ ∃ x, s.Runs (.ldStVx x) ∧ t.st = s.reg x)

/-- SP changes in a step only by `CALL` (plus 1) and `RET` (minus 1), and a stack entry only by `CALL`, at SP (the
stack convention is the spec's decision D15). -/
def Obligations.StackMovesByCallAndRet : Prop :=
  ∀ s t : State, step s = .next t →
    (t.sp ≠ s.sp → (∃ a, s.Runs (.call a) ∧ t.sp = s.sp + 1) ∨ s.Runs .ret ∧ t.sp = s.sp - 1) ∧
    ∀ (k : Nat) (hk : k < 16), t.stack[k] ≠ s.stack[k] → k = s.sp.toNat ∧ ∃ a, s.Runs (.call a)

/-- No instruction changes a general register but the ones it names as its destination and, where it writes a flag,
VF: `mayWriteReg` lists them (D9 for the instructions that leave VF alone). -/
def Obligations.OnlyDestinationRegistersChange : Prop :=
  ∀ (i : Instr) (s t : State) (r : RegIdx), exec i s = .next t → t.reg r ≠ s.reg r → mayWriteReg i r

/-- The host's inputs reach only `RND`, `SKP`, `SKNP` and `LD Vx, K`: every other instruction does the same whatever
the host's turns are. -/
def Obligations.HostInputsReachOnlyFourInstructions : Prop :=
  ∀ (i : Instr) (s t : State) (script : List HostTurn) (turnNo : Nat), samplesHost i = false →
    exec i s = .next t → exec i (s.withHost script turnNo) = .next (t.withHost script turnNo)

/-! ## Control transfer (40_control_flow.md) -/

/-- `SYS` always latches `UnimplementedOpcode` with its own word, which is its NNN (the spec's decision D5). -/
def Obligations.SysAlwaysRaises : Prop :=
  ∀ (nnn : Addr12) (s : State),
    RaisesIn s (exec (.sys nnn) s) (.sys nnn) .unimplementedOpcode nnn.toNat ∧ (encode (.sys nnn)).toNat = nnn.toNat

/-- R133: `JP addr` moves PC to NNN, and does nothing else. -/
def Obligations.JumpGoesToItsTarget : Prop :=
  ∀ (nnn : Addr12) (s : State), MovesPc s (exec (.jp nnn) s) nnn.toNat

/-- R139: `JP V0, addr` moves PC to NNN + V0, and does nothing else. -/
def Obligations.JumpWithOffsetAddsV0 : Prop :=
  ∀ (nnn : Addr12) (s : State), MovesPc s (exec (.jpV0 nnn) s) ((nnn.toNat + (s.reg 0).toNat) % 65536)

/-- R134: `CALL` stores the address of the next instruction at SP, adds 1 to SP and moves PC to NNN; with a full stack
it latches `StackOverflow` and writes nothing (the record's form is the spec's decision D31, its entry D22). -/
def Obligations.CallPushesTheNextAddress : Prop :=
  ∀ (nnn : Addr12) (s : State),
    (∀ h : s.sp.toNat < 16, ∃ t, exec (.call nnn) s = .next t ∧ t.pc.toNat = nnn.toNat ∧
      t.sp.toNat = s.sp.toNat + 1 ∧ (t.stack[s.sp.toNat]'h).toNat = (s.pc.toNat + 2) % 65536 ∧
      (∀ (k : Nat) (hk : k < 16), k ≠ s.sp.toNat → t.stack[k] = s.stack[k]) ∧ OnlyChanges [.pc, .sp, .stack] s t) ∧
    (s.sp.toNat = 16 → RaisesIn s (exec (.call nnn) s) (.call nnn) .stackOverflow 16)

/-- R132: `RET` lowers SP and moves PC to the entry there, which it leaves in the array; with an empty stack it latches
`StackUnderflow` and writes nothing (the record's form is the spec's decision D31, its entry D22). -/
def Obligations.RetPopsTheLastAddress : Prop :=
  ∀ s : State,
    (∀ h : 1 ≤ s.sp.toNat ∧ s.sp.toNat ≤ 16, ∃ t, exec .ret s = .next t ∧ t.sp.toNat = s.sp.toNat - 1 ∧
      t.pc = s.stack[s.sp.toNat - 1]'(by omega) ∧ OnlyChanges [.pc, .sp] s t) ∧
    (s.sp.toNat = 0 → RaisesIn s (exec .ret s) .ret .stackUnderflow 0)

/-- A call and a return from it: PC is the instruction after the call, the depth is what it was, and only stale stack
content has changed (the source's example S6). -/
def Obligations.CallThenRetComesBack : Prop :=
  ∀ (nnn : Addr12) (s : State), s.sp.toNat < 16 →
    ∃ t u, exec (.call nnn) s = .next t ∧ exec .ret t = .next u ∧ u.pc.toNat = (s.pc.toNat + 2) % 65536 ∧
      (∀ (k : Nat) (hk : k < 16), k ≠ s.sp.toNat → u.stack[k] = s.stack[k]) ∧ OnlyChanges [.pc, .stack] s u

/-- The model's stop (notes/assumptions/9.md): where SP holds a value that is never produced, `CALL` and `RET` fault. -/
def Obligations.UnproducedStackPointerStops : Prop :=
  ∀ (nnn : Addr12) (s : State), 16 < s.sp.toNat →
    exec (.call nnn) s = .fault .stackPointerOutOfRange ∧ exec .ret s = .fault .stackPointerOutOfRange

/-- `SE Vx, byte` and `SNE Vx, byte` add 4 or 2 to PC, and do nothing else (conditions supplied by the spec: G8). -/
def Obligations.SkipsOnAByte : Prop :=
  ∀ (x : RegIdx) (nn : Byte) (s : State),
    MovesPc s (exec (.seByte x nn) s) ((s.pc.toNat + if (s.reg x).toNat = nn.toNat then 4 else 2) % 65536) ∧
    MovesPc s (exec (.sneByte x nn) s) ((s.pc.toNat + if (s.reg x).toNat = nn.toNat then 2 else 4) % 65536)

/-- `SE Vx, Vy` and `SNE Vx, Vy` add 4 or 2 to PC whatever the ignored N is, and do nothing else (G8, D6). -/
def Obligations.SkipsOnARegister : Prop :=
  ∀ (x y : RegIdx) (n : Nibble) (s : State),
    MovesPc s (exec (.seReg x y n) s) ((s.pc.toNat + if (s.reg x).toNat = (s.reg y).toNat then 4 else 2) % 65536) ∧
    MovesPc s (exec (.sneReg x y n) s) ((s.pc.toNat + if (s.reg x).toNat = (s.reg y).toNat then 2 else 4) % 65536)

/-! ## The ALU (41_alu.md) -/

/-- `LD Vx, byte` and `ADD Vx, byte`: the byte, and the sum modulo 256, in Vx; VF is written only as Vx (the spec
supplies both: G11, D9). -/
def Obligations.ImmediateFormsWriteVx : Prop :=
  ∀ (x : RegIdx) (nn : Byte) (s : State),
    ResultIn s (exec (.ldByte x nn) s) x nn.toNat ∧
    ResultIn s (exec (.addByte x nn) s) x (((s.reg x).toNat + nn.toNat) % 256)

/-- R154 to R157: `LD Vx, Vy`, `OR`, `AND`, `XOR` write Vx and no flag. -/
def Obligations.LoadAndLogicWriteVx : Prop :=
  ∀ (x y : RegIdx) (s : State),
    ResultIn s (exec (.ldReg x y) s) x (s.reg y).toNat ∧
    ResultIn s (exec (.orReg x y) s) x ((s.reg x).toNat ||| (s.reg y).toNat) ∧
    ResultIn s (exec (.andReg x y) s) x ((s.reg x).toNat &&& (s.reg y).toNat) ∧
    ResultIn s (exec (.xorReg x y) s) x ((s.reg x).toNat ^^^ (s.reg y).toNat)

/-- R158: `ADD Vx, Vy`: the sum modulo 256 in Vx, the ninth bit of the sum in VF, written last (D8). -/
def Obligations.AddSetsTheCarry : Prop :=
  ∀ (x y : RegIdx) (s : State),
    FlaggedResultIn s (exec (.addReg x y) s) x (((s.reg x).toNat + (s.reg y).toNat) % 256)
      (if 255 < (s.reg x).toNat + (s.reg y).toNat then 1 else 0)

/-- R159: `SUB Vx, Vy`: the difference modulo 256 in Vx, 1 in VF, written last (D8), exactly when minuend
≥ subtrahend. -/
def Obligations.SubSetsNoBorrow : Prop :=
  ∀ (x y : RegIdx) (s : State),
    FlaggedResultIn s (exec (.subReg x y) s) x ((256 + (s.reg x).toNat - (s.reg y).toNat) % 256)
      (if (s.reg y).toNat ≤ (s.reg x).toNat then 1 else 0)

/-- `SUBN Vx, Vy`: Vy - Vx modulo 256 in Vx, 1 in VF exactly when Vy ≥ Vx (the operand order is supplied by the spec:
G10). -/
def Obligations.SubnSubtractsTheOtherWay : Prop :=
  ∀ (x y : RegIdx) (s : State),
    FlaggedResultIn s (exec (.subn x y) s) x ((256 + (s.reg y).toNat - (s.reg x).toNat) % 256)
      (if (s.reg x).toNat ≤ (s.reg y).toNat then 1 else 0)

/-- `SHR`: half the operand in Vx, its dropped bit 0 in VF; the operand is the one SHIFT_USES_Y names (the spec's
decision D7). -/
def Obligations.ShrHalvesAndDropsBitZero : Prop :=
  ∀ (x y : RegIdx) (s : State),
    FlaggedResultIn s (exec (.shr x y) s) x ((s.reg (if s.cfg.shiftUsesY then y else x)).toNat / 2)
      ((s.reg (if s.cfg.shiftUsesY then y else x)).toNat % 2)

/-- `SHL`: twice the operand modulo 256 in Vx, its dropped bit 7 in VF; the operand as for `SHR` (D7). -/
def Obligations.ShlDoublesAndDropsBitSeven : Prop :=
  ∀ (x y : RegIdx) (s : State),
    FlaggedResultIn s (exec (.shl x y) s) x ((s.reg (if s.cfg.shiftUsesY then y else x)).toNat * 2 % 256)
      ((s.reg (if s.cfg.shiftUsesY then y else x)).toNat / 128)

/-- R163: `RND Vx, byte`: the host's byte of this cycle AND the immediate, in Vx, whatever that byte is; no bit outside
the immediate is set. -/
def Obligations.RndMasksTheHostsByte : Prop :=
  ∀ (x : RegIdx) (nn : Byte) (s : State),
    ResultIn s (exec (.rnd x nn) s) x (s.turn.rnd.toNat &&& nn.toNat) ∧
    ∀ t, exec (.rnd x nn) s = .next t → t.reg x &&& ~~~nn = 0

/-! ## The display (42_display.md) -/

/-- R181: `CLS` sets every pixel to 0 and does nothing else but advance PC; the output interface then presents the new
bitmap; a second `CLS` changes no pixel. -/
def Obligations.ClsClearsEveryPixel : Prop :=
  ∀ s : State, ∃ t, exec .cls s = .next t ∧ Display.wf s.cfg t.disp ∧ (∀ x y, Display.pixel t.disp x y = false) ∧
    Advances s t ∧ OnlyChanges [.disp, .pc] s t ∧ (s.err = none → outputOf .cls t = some t.disp) ∧
    ∀ u, exec .cls t = .next u → u.disp = t.disp

/-- `DRW` refines its closed form: each pixel is XORed with the one sprite bit that lands on it under per-pixel
wraparound, VF is 1 exactly when a set sprite bit met a set pixel, and nothing else changes but PC (the wrap and the
meaning of N = 0 are the spec's decision D18). -/
def Obligations.DrwXorsTheWrappedSprite : Prop :=
  ∀ (x y : RegIdx) (n : Nibble) (s : State), s.Inv → (n = 0 ∨ s.i.toNat + n.toNat ≤ s.cfg.memSize) →
    ∃ t, exec (.drw x y n) s = .next t ∧
      (∀ px py, px < s.cfg.dispW → py < s.cfg.dispH →
        Display.pixel t.disp px py = (Display.pixel s.disp px py !=
          s.spriteBit ((s.reg x).toNat % s.cfg.dispW) ((s.reg y).toNat % s.cfg.dispH) n.toNat px py)) ∧
      (t.reg vf = 0 ∨ t.reg vf = 1) ∧
      (t.reg vf = 1 ↔ ∃ px py, px < s.cfg.dispW ∧ py < s.cfg.dispH ∧ Display.pixel s.disp px py = true ∧
        s.spriteBit ((s.reg x).toNat % s.cfg.dispW) ((s.reg y).toNat % s.cfg.dispH) n.toNat px py = true) ∧
      (∀ r, r ≠ vf → t.reg r = s.reg r) ∧ Advances s t ∧ OnlyChanges [.regs, .pc, .disp] s t

/-- Drawing twice at the same place restores the display. The second draw reports a collision exactly when some set
sprite bit falls on a pixel that was 0 before the first draw; on an empty display, exactly when the sprite is not empty.
X and Y are not VF (42_display.md, rule R183 (a), which says "VF=1 on the second draw" without the condition: see
notes/assumptions/11.md; D18 for the wrap). -/
def Obligations.DrawingTwiceRestoresTheDisplay : Prop :=
  ∀ (x y : RegIdx) (n : Nibble) (s : State), s.Inv → (n = 0 ∨ s.i.toNat + n.toNat ≤ s.cfg.memSize) → x ≠ vf → y ≠ vf →
    ∃ t u, exec (.drw x y n) s = .next t ∧ exec (.drw x y n) t = .next u ∧ u.disp = s.disp ∧
      (u.reg vf = 0 ∨ u.reg vf = 1) ∧
      (u.reg vf = 1 ↔ ∃ px py, px < s.cfg.dispW ∧ py < s.cfg.dispH ∧ Display.pixel s.disp px py = false ∧
        s.spriteBit ((s.reg x).toNat % s.cfg.dispW) ((s.reg y).toNat % s.cfg.dispH) n.toNat px py = true) ∧
      ((∀ px py, Display.pixel s.disp px py = false) →
        (u.reg vf = 1 ↔ ∃ k, k < n.toNat ∧ s.byteAt (s.i.toNat + k) ≠ 0))

/-- The two edges of `DRW`: with N = 0 it draws nothing, clears VF and checks nothing, whatever I is; with a row out of
range it latches `MemoryRange` of the lowest address out of range (D18, D11). -/
def Obligations.DrwEdgesOfTheRowCount : Prop :=
  ∀ (x y : RegIdx) (n : Nibble) (s : State),
    (n = 0 → ∃ t, exec (.drw x y n) s = .next t ∧ t.disp = s.disp ∧
      (∀ r, t.reg r = if r = vf then 0 else s.reg r) ∧ Advances s t ∧ OnlyChanges [.regs, .pc] s t) ∧
    (n ≠ 0 → s.cfg.memSize < s.i.toNat + n.toNat →
      RaisesIn s (exec (.drw x y n) s) (.drw x y n) .memoryRange (max s.i.toNat s.cfg.memSize))

/-! ## Keypad and timers (43_keypad_timers.md) -/

/-- `SKP` and `SKNP` sample the level of key Vx in this cycle; a key number above 15 latches `IndexRange` (the senses
are supplied by the spec: G9; the error is its decision D17). -/
def Obligations.KeySkipsSampleOneKey : Prop :=
  ∀ (x : RegIdx) (s : State),
    ((s.reg x).toNat ≤ 15 →
      MovesPc s (exec (.skp x) s) ((s.pc.toNat + if s.turn.keys.getLsbD (s.reg x).toNat then 4 else 2) % 65536) ∧
      MovesPc s (exec (.sknp x) s) ((s.pc.toNat + if s.turn.keys.getLsbD (s.reg x).toNat then 2 else 4) % 65536)) ∧
    (15 < (s.reg x).toNat →
      RaisesIn s (exec (.skp x) s) (.skp x) .indexRange (s.reg x).toNat ∧
      RaisesIn s (exec (.sknp x) s) (.sknp x) .indexRange (s.reg x).toNat)

/-- R193 "`V[X] <- DT; pc <- (PC + 2) mod 65536`", R195 "`DT <- V[X]; pc <- (PC + 2) mod 65536`", R196
"`ST <- V[X]; pc <- (PC + 2) mod 65536`": the timer read and the two timer writes, with no flag and no error. -/
def Obligations.TimerInstructionsMoveOneByte : Prop :=
  ∀ (x : RegIdx) (s : State),
    ResultIn s (exec (.ldVxDt x) s) x s.dt.toNat ∧
    (∃ t, exec (.ldDtVx x) s = .next t ∧ t.dt = s.reg x ∧ Advances s t ∧ OnlyChanges [.dt, .pc] s t) ∧
    (∃ t, exec (.ldStVx x) s = .next t ∧ t.st = s.reg x ∧ Advances s t ∧ OnlyChanges [.st, .pc] s t)

/-- `LD Vx, K` without an event leaves the state as it was, PC included; with an event it takes the key, and PC goes on
(which event the host reports is the host's: D20). -/
def Obligations.KeyWaitBlocksOrTakesTheKey : Prop :=
  ∀ (x : RegIdx) (s : State),
    (s.turn.keyEvent = none → exec (.ldVxK x) s = .next s) ∧
    ∀ k, s.turn.keyEvent = some k → ResultIn s (exec (.ldVxK x) s) x k.toNat

/-! ## Address register and memory (44_memory_index.md) -/

/-- `LD I, addr` and `ADD I, Vx`: NNN, and the sum modulo 65536, in I; no flag, no check (G11, D10). -/
def Obligations.AddressRegisterLoadsAndAdds : Prop :=
  ∀ s : State,
    (∀ nnn, ∃ t, exec (.ldI nnn) s = .next t ∧ t.i.toNat = nnn.toNat ∧ Advances s t ∧ OnlyChanges [.i, .pc] s t) ∧
    ∀ x, ∃ t, exec (.addI x) s = .next t ∧ t.i.toNat = (s.i.toNat + (s.reg x).toNat) % 65536 ∧ Advances s t ∧
      OnlyChanges [.i, .pc] s t

/-- `LD F, Vx` puts the glyph's address in I; a glyph number above 15 latches `IndexRange` (D16, D17). -/
def Obligations.GlyphLookupPointsIntoTheFont : Prop :=
  ∀ (x : RegIdx) (s : State), s.cfg.WellFormed →
    ((s.reg x).toNat ≤ 15 → ∃ t, exec (.ldF x) s = .next t ∧ t.i.toNat = s.cfg.fontBase + 5 * (s.reg x).toNat ∧
      Advances s t ∧ OnlyChanges [.i, .pc] s t) ∧
    (15 < (s.reg x).toNat → RaisesIn s (exec (.ldF x) s) (.ldF x) .indexRange (s.reg x).toNat)

/-- R204: double-dabble equals the converter's defining property, for every byte, and each digit is decimal. -/
def Obligations.DoubleDabbleGivesTheDigits : Prop :=
  ∀ v : Byte, doubleDabble v = bcdDigits v ∧
    ∃ h t o : Nat, (bcdDigits v).map BitVec.toNat = [h, t, o] ∧ h ≤ 2 ∧ t ≤ 9 ∧ o ≤ 9 ∧
      v.toNat = 100 * h + 10 * t + o

/-- R205: `LD B, Vx` stores the three digits at I, I+1, I+2 and changes no other byte; out of range, or below
LOAD_BASE, it stores nothing and latches the error (D31, D22, and D12 for the reserved region). -/
def Obligations.BcdStoreWritesThreeDigits : Prop :=
  ∀ (x : RegIdx) (s : State),
    (s.Inv → s.cfg.loadBase ≤ s.i.toNat → s.i.toNat + 2 < s.cfg.memSize →
      ∃ t, exec (.ldB x) s = .next t ∧ (t.byteAt s.i.toNat).toNat = (s.reg x).toNat / 100 ∧
        (t.byteAt (s.i.toNat + 1)).toNat = (s.reg x).toNat / 10 % 10 ∧
        (t.byteAt (s.i.toNat + 2)).toNat = (s.reg x).toNat % 10 ∧
        SameOutside s.i.toNat 3 s t ∧ Advances s t ∧ OnlyChanges [.mem, .pc] s t) ∧
    (s.cfg.memSize ≤ s.i.toNat + 2 →
      RaisesIn s (exec (.ldB x) s) (.ldB x) .memoryRange (max s.i.toNat s.cfg.memSize)) ∧
    (s.i.toNat + 2 < s.cfg.memSize → s.i.toNat < s.cfg.loadBase →
      RaisesIn s (exec (.ldB x) s) (.ldB x) .reservedWrite s.i.toNat)

/-- `LD [I], Vx` stores V0 .. VX at I .. I+X and changes no other byte, nor I (D19); out of range, or below LOAD_BASE,
it stores nothing and latches the error (D12). -/
def Obligations.BlockStoreWritesItsWindow : Prop :=
  ∀ (x : RegIdx) (s : State),
    (s.Inv → s.cfg.loadBase ≤ s.i.toNat → s.i.toNat + x.toNat < s.cfg.memSize →
      ∃ t, exec (.storeBlock x) s = .next t ∧
        (∀ r : RegIdx, r.toNat ≤ x.toNat → t.byteAt (s.i.toNat + r.toNat) = s.reg r) ∧
        SameOutside s.i.toNat (x.toNat + 1) s t ∧ Advances s t ∧ OnlyChanges [.mem, .pc] s t) ∧
    (s.cfg.memSize ≤ s.i.toNat + x.toNat →
      RaisesIn s (exec (.storeBlock x) s) (.storeBlock x) .memoryRange (max s.i.toNat s.cfg.memSize)) ∧
    (s.i.toNat + x.toNat < s.cfg.memSize → s.i.toNat < s.cfg.loadBase →
      RaisesIn s (exec (.storeBlock x) s) (.storeBlock x) .reservedWrite s.i.toNat)

/-- `LD Vx, [I]` loads V0 .. VX from I .. I+X and leaves the registers above, and I (D19); out of range it loads
nothing and latches the error. -/
def Obligations.BlockLoadReadsItsWindow : Prop :=
  ∀ (x : RegIdx) (s : State),
    (s.i.toNat + x.toNat < s.cfg.memSize →
      ∃ t, exec (.loadBlock x) s = .next t ∧
        (∀ r : RegIdx, t.reg r = if r.toNat ≤ x.toNat then s.byteAt (s.i.toNat + r.toNat) else s.reg r) ∧
        Advances s t ∧ OnlyChanges [.regs, .pc] s t) ∧
    (s.cfg.memSize ≤ s.i.toNat + x.toNat →
      RaisesIn s (exec (.loadBlock x) s) (.loadBlock x) .memoryRange (max s.i.toNat s.cfg.memSize))

/-- What a block store wrote, a block load of any later state with that memory and that I gives back (from the two
instructions of 44_memory_index.md and the sequential memory of 20_memory.md section 6, D30). -/
def Obligations.BlockLoadUndoesBlockStore : Prop :=
  ∀ (x : RegIdx) (s : State), s.Inv → s.cfg.loadBase ≤ s.i.toNat → s.i.toNat + x.toNat < s.cfg.memSize →
    ∃ t, exec (.storeBlock x) s = .next t ∧
      ∀ u : State, u.cfg = s.cfg → u.mem = t.mem → u.i = s.i →
        ∃ w, exec (.loadBlock x) u = .next w ∧
          ∀ r : RegIdx, w.reg r = if r.toNat ≤ x.toNat then s.reg r else u.reg r

/-- A store is seen by the very next fetch: a block of at least two registers stored over the next instruction is the
word the next cycle fetches, V0 its high byte (D30, D3). -/
def Obligations.NextFetchSeesTheStore : Prop :=
  ∀ (x : RegIdx) (s : State), s.Inv → s.pc.toNat % 2 = s.cfg.loadBase % 2 → s.i.toNat = s.pc.toNat + 2 →
    s.cfg.loadBase ≤ s.i.toNat → 1 ≤ x.toNat → s.i.toNat + x.toNat < s.cfg.memSize →
    ∃ t, exec (.storeBlock x) s = .next t ∧ t.fetch = .ok (wordOfBytes (s.reg 0) (s.reg 1))

/-! ## Reset and the host's interfaces (10_state.md section 7, 60_exceptions.md section 3) -/

/-- Reset and load, for all legal parameters and every image that fits: the value of every piece of state. Registers,
I, SP, stack and timers are zero by the source; PC, the display, the font and the rest of memory are the spec's
decisions D16 and D24, ERR its decision D22. -/
def Obligations.SessionStartsWithTheListedValues : Prop :=
  ∀ (p : Params) (image : List Byte), p.WellFormed → p.loadBase + image.length ≤ p.memSize →
    ∃ s, (State.resetWith p).load image = .next s ∧ (∀ r, s.reg r = 0) ∧ s.i = 0 ∧ s.pc.toNat = p.loadBase ∧
      s.sp = 0 ∧ (∀ (k : Nat) (hk : k < 16), s.stack[k] = 0) ∧ s.dt = 0 ∧ s.st = 0 ∧ s.err = none ∧
      Display.wf p s.disp ∧ (∀ x y, Display.pixel s.disp x y = false) ∧ s.cfg = p ∧
      ∀ a, s.byteAt a =
        if p.loadBase ≤ a ∧ a < p.loadBase + image.length then image.getD (a - p.loadBase) 0
        else if p.fontBase ≤ a ∧ a < p.fontBase + 80 then fontTable.getD (a - p.fontBase) 0 else 0

/-- The host's offers outside their contracts are refused and stored nowhere: an image that does not fit (D29), a key
event above 15 (D20). That an offer inside becomes one more fixed turn at the end of `script` is the model's choice
(notes/assumptions/4.md, 7.md). -/
def Obligations.OffersOutsideTheContractAreRefused : Prop :=
  (∀ (image : List Byte) (s : State), s.cfg.memSize < s.cfg.loadBase + image.length →
    s.load image = .refused .imageDoesNotFit) ∧
  ∀ (tick : Bool) (keys : BitVec 16) (k rnd : Byte) (s : State),
    (15 < k.toNat → s.offer tick keys (some k) rnd = .refused .keyEventOutOfContract) ∧
    (k.toNat ≤ 15 → ∃ key : Key, key.toNat = k.toNat ∧
      s.offer tick keys (some k) rnd = .next { s with script := s.script ++ [⟨tick, keys, some key, rnd⟩] })

/-- Without an image the first cycle latches `UnimplementedOpcode(0x0000)` at 0x200, at the default parameters, which are
the model's choice for reset (notes/assumptions/2.md). That the first step from reset is that cycle is the model's choice
too: `script` starts empty, and no free tick is taken while both timers are 0 (notes/assumptions/4.md). -/
def Obligations.ResetWithoutAnImageRaisesAtOnce : Prop :=
  ∃ t, step State.reset = .next t ∧ t.err = some ⟨.unimplementedOpcode, 0x200, some 0x0000, 0⟩ ∧
    OnlyChanges [.err, .host] State.reset t
end

