-- ==== Sys2Proof/Laws/Decode.lean ====
section
/-! SUPPORT. Words, fields and formats as numbers: what each instruction format packs and what the field extractor
reads back, and the byte order of a word. -/

namespace Sys2Proof

theorem toNat_append {m n : Nat} (a : BitVec m) (b : BitVec n) : (a ++ b).toNat = a.toNat * 2 ^ n + b.toNat := by
  rw [BitVec.toNat_append, ← Nat.shiftLeft_add_eq_or_of_lt b.isLt, Nat.shiftLeft_eq]

/-! ### the byte order of fetch -/

theorem wordOfBytes_toNat (a b : Byte) : (wordOfBytes a b).toNat = a.toNat * 256 + b.toNat := toNat_append a b

theorem bytesOfWord_wordOfBytes (a b : Byte) : bytesOfWord (wordOfBytes a b) = [a, b] := by
  have h := wordOfBytes_toNat a b
  have ha : a.toNat < 256 := a.isLt
  have hb : b.toNat < 256 := b.isLt
  have e1 : (wordOfBytes a b).extractLsb' 8 8 = a := BitVec.eq_of_toNat_eq (by
    rw [BitVec.extractLsb'_toNat, h, Nat.shiftRight_eq_div_pow]; omega)
  have e2 : (wordOfBytes a b).extractLsb' 0 8 = b := BitVec.eq_of_toNat_eq (by
    rw [BitVec.extractLsb'_toNat, h, Nat.shiftRight_eq_div_pow]; omega)
  rw [bytesOfWord, e1, e2]

theorem wordOfBytes_split (w : Word) : wordOfBytes (w.extractLsb' 8 8) (w.extractLsb' 0 8) = w :=
  BitVec.eq_of_toNat_eq (by
    have hw : w.toNat < 65536 := w.isLt
    rw [wordOfBytes_toNat, BitVec.extractLsb'_toNat, BitVec.extractLsb'_toNat, Nat.shiftRight_eq_div_pow,
      Nat.shiftRight_eq_div_pow]
    omega)

/-! ### fields as numbers (R94) -/

theorem fieldsOf_cls_toNat (w : Word) : (fieldsOf w).cls.toNat = w.toNat / 4096 % 16 := by
  show (w.extractLsb' 12 4).toNat = _
  rw [BitVec.extractLsb'_toNat, Nat.shiftRight_eq_div_pow]

theorem fieldsOf_x_toNat (w : Word) : (fieldsOf w).x.toNat = w.toNat / 256 % 16 := by
  show (w.extractLsb' 8 4).toNat = _
  rw [BitVec.extractLsb'_toNat, Nat.shiftRight_eq_div_pow]

theorem fieldsOf_y_toNat (w : Word) : (fieldsOf w).y.toNat = w.toNat / 16 % 16 := by
  show (w.extractLsb' 4 4).toNat = _
  rw [BitVec.extractLsb'_toNat, Nat.shiftRight_eq_div_pow]

theorem fieldsOf_n_toNat (w : Word) : (fieldsOf w).n.toNat = w.toNat / 1 % 16 := by
  show (w.extractLsb' 0 4).toNat = _
  rw [BitVec.extractLsb'_toNat, Nat.shiftRight_eq_div_pow]

theorem fieldsOf_nn_toNat (w : Word) : (fieldsOf w).nn.toNat = w.toNat / 1 % 256 := by
  show (w.extractLsb' 0 8).toNat = _
  rw [BitVec.extractLsb'_toNat, Nat.shiftRight_eq_div_pow]

theorem fieldsOf_nnn_toNat (w : Word) : (fieldsOf w).nnn.toNat = w.toNat / 1 % 4096 := by
  show (w.extractLsb' 0 12).toNat = _
  rw [BitVec.extractLsb'_toNat, Nat.shiftRight_eq_div_pow]

/-! ### formats as numbers (R95) -/

theorem packNNN_toNat (c : BitVec 4) (a : Addr12) : (packNNN c a).toNat = c.toNat * 4096 + a.toNat := toNat_append c a

theorem packXNN_toNat (c : BitVec 4) (x : RegIdx) (k : Byte) :
    (packXNN c x k).toNat = c.toNat * 4096 + x.toNat * 256 + k.toNat := by
  have h := toNat_append c (x ++ k)
  rw [toNat_append x k] at h
  refine Eq.trans h ?_
  omega

theorem packXYN_toNat (c : BitVec 4) (x y : RegIdx) (n : Nibble) :
    (packXYN c x y n).toNat = c.toNat * 4096 + x.toNat * 256 + y.toNat * 16 + n.toNat := by
  have h := toNat_append c (x ++ (y ++ n))
  rw [toNat_append x (y ++ n), toNat_append y n] at h
  refine Eq.trans h ?_
  omega

/-! ### the fields of each format -/

@[simp] theorem fieldsOf_packNNN_cls (c : BitVec 4) (a : Addr12) : (fieldsOf (packNNN c a)).cls = c :=
  BitVec.eq_of_toNat_eq (by
    have := c.isLt
    have := a.isLt
    rw [fieldsOf_cls_toNat, packNNN_toNat]
    omega)

@[simp] theorem fieldsOf_packNNN_nnn (c : BitVec 4) (a : Addr12) : (fieldsOf (packNNN c a)).nnn = a :=
  BitVec.eq_of_toNat_eq (by
    have := c.isLt
    have := a.isLt
    rw [fieldsOf_nnn_toNat, packNNN_toNat]
    omega)

@[simp] theorem fieldsOf_packXNN_cls (c : BitVec 4) (x : RegIdx) (k : Byte) : (fieldsOf (packXNN c x k)).cls = c :=
  BitVec.eq_of_toNat_eq (by
    have := c.isLt
    have := x.isLt
    have := k.isLt
    rw [fieldsOf_cls_toNat, packXNN_toNat]
    omega)

@[simp] theorem fieldsOf_packXNN_x (c : BitVec 4) (x : RegIdx) (k : Byte) : (fieldsOf (packXNN c x k)).x = x :=
  BitVec.eq_of_toNat_eq (by
    have := c.isLt
    have := x.isLt
    have := k.isLt
    rw [fieldsOf_x_toNat, packXNN_toNat]
    omega)

@[simp] theorem fieldsOf_packXNN_nn (c : BitVec 4) (x : RegIdx) (k : Byte) : (fieldsOf (packXNN c x k)).nn = k :=
  BitVec.eq_of_toNat_eq (by
    have := c.isLt
    have := x.isLt
    have := k.isLt
    rw [fieldsOf_nn_toNat, packXNN_toNat]
    omega)

@[simp] theorem fieldsOf_packXYN_cls (c : BitVec 4) (x y : RegIdx) (n : Nibble) : (fieldsOf (packXYN c x y n)).cls = c :=
  BitVec.eq_of_toNat_eq (by
    have := c.isLt
    have := x.isLt
    have := y.isLt
    have := n.isLt
    rw [fieldsOf_cls_toNat, packXYN_toNat]
    omega)

@[simp] theorem fieldsOf_packXYN_x (c : BitVec 4) (x y : RegIdx) (n : Nibble) : (fieldsOf (packXYN c x y n)).x = x :=
  BitVec.eq_of_toNat_eq (by
    have := c.isLt
    have := x.isLt
    have := y.isLt
    have := n.isLt
    rw [fieldsOf_x_toNat, packXYN_toNat]
    omega)

@[simp] theorem fieldsOf_packXYN_y (c : BitVec 4) (x y : RegIdx) (n : Nibble) : (fieldsOf (packXYN c x y n)).y = y :=
  BitVec.eq_of_toNat_eq (by
    have := c.isLt
    have := x.isLt
    have := y.isLt
    have := n.isLt
    rw [fieldsOf_y_toNat, packXYN_toNat]
    omega)

@[simp] theorem fieldsOf_packXYN_n (c : BitVec 4) (x y : RegIdx) (n : Nibble) : (fieldsOf (packXYN c x y n)).n = n :=
  BitVec.eq_of_toNat_eq (by
    have := c.isLt
    have := x.isLt
    have := y.isLt
    have := n.isLt
    rw [fieldsOf_n_toNat, packXYN_toNat]
    omega)

end Sys2Proof
end

