-- ==== Sys2Proof/Laws/Display.lean ====
section
/-! SUPPORT. The laws of the framebuffer: what a toggle does to every pixel, that the display keeps its size, and
what a row byte and a sprite's set bits are. -/

namespace Sys2Proof.Machine

variable {p : Params}

theorem Display.pixel_toggle (d : Display) (x y u v : Nat) (hv : v < d.length) (hu : u < (d.getD v []).length) :
    Display.pixel (Display.toggle d x y) u v = (Display.pixel d u v != (decide (u = x) && decide (v = y))) := by
  unfold Display.pixel Display.toggle
  simp only [List.getD_eq_getElem?_getD, List.getElem?_modify] at hu ⊢
  rw [List.getElem?_eq_getElem hv] at hu ⊢
  simp only [Option.getD_some, Option.map_eq_map, Option.map_some] at hu ⊢
  by_cases h2 : y = v
  · subst h2
    by_cases h1 : x = u
    · subst h1; simp [List.getElem?_eq_getElem hu]
    · simp [List.getElem?_eq_getElem hu, h1, Ne.symm h1]
  · simp [h2, Ne.symm h2]

theorem Display.toggle_wf {d : Display} (h : Display.wf p d) (x y : Nat) : Display.wf p (Display.toggle d x y) := by
  refine ⟨by simp [Display.toggle, h.1], fun row hr => ?_⟩
  unfold Display.toggle at hr
  obtain ⟨n, hn⟩ := List.mem_iff_getElem?.1 hr
  rw [List.getElem?_modify] at hn
  cases hd : d[n]? with
  | none => simp [hd] at hn
  | some r =>
    have hl := h.2 r (List.mem_of_getElem? hd)
    simp only [hd, Option.map_eq_map, Option.map_some, Option.some.injEq] at hn
    subst hn
    split <;> simp [hl]

theorem Display.row_length {d : Display} (h : Display.wf p d) {v : Nat} (hv : v < p.dispH) :
    (d.getD v []).length = p.dispW := by
  have hv' : v < d.length := by rw [h.1]; exact hv
  rw [List.getD_eq_getElem?_getD, List.getElem?_eq_getElem hv', Option.getD_some]
  exact h.2 _ (List.getElem_mem hv')

/-- Two displays of one size with the same pixels are equal. -/
theorem Display.ext_pixels {d e : Display} (hd : Display.wf p d) (he : Display.wf p e)
    (h : ∀ x y, x < p.dispW → y < p.dispH → Display.pixel d x y = Display.pixel e x y) : d = e := by
  apply List.ext_getElem (by rw [hd.1, he.1])
  intro n h1 h2
  have hn : n < p.dispH := hd.1 ▸ h1
  apply List.ext_getElem (by rw [hd.2 _ (List.getElem_mem h1), he.2 _ (List.getElem_mem h2)])
  intro m h3 h4
  have hm : m < p.dispW := by rw [hd.2 _ (List.getElem_mem h1)] at h3; exact h3
  have := h m n hm hn
  unfold Display.pixel at this
  simpa [List.getD_eq_getElem?_getD, List.getElem?_eq_getElem h1, List.getElem?_eq_getElem h2,
    List.getElem?_eq_getElem h3, List.getElem?_eq_getElem h4] using this

theorem blankDisplay_wf (p : Params) : Display.wf p (blankDisplay p) := by
  unfold blankDisplay
  exact ⟨by simp, fun row h => by rw [List.eq_of_mem_replicate h]; simp⟩

theorem blankDisplay_pixel (p : Params) (x y : Nat) : Display.pixel (blankDisplay p) x y = false := by
  unfold Display.pixel blankDisplay
  by_cases hy : y < p.dispH
  · by_cases hx : x < p.dispW <;> simp [List.getD_eq_getElem?_getD, hy, hx]
  · simp [List.getD_eq_getElem?_getD, hy]

/-! ### the blitter -/

theorem blitDots_wf (x0 y0 : Nat) : ∀ (dots : List (Nat × Nat)) (acc : Display × Bool), Display.wf p acc.1 →
    Display.wf p (dots.foldl (blitDot p x0 y0) acc).1
  | [], _, h => h
  | _ :: dots, acc, h => blitDots_wf x0 y0 dots _ (Display.toggle_wf (d := acc.1) h _ _)

theorem blit_wf {d : Display} (h : Display.wf p d) (x0 y0 : Nat) (rows : List Byte) :
    Display.wf p (blit p d x0 y0 rows).1 := blitDots_wf x0 y0 _ _ h

theorem mem_rowDots {b : Byte} {c : Nat} : c ∈ rowDots b ↔ c < 8 ∧ b.getLsbD (7 - c) = true := by
  simp [rowDots]

/-- The set bits of a sprite: column below 8, row among the bytes, bit set. -/
theorem mem_spriteDots : ∀ {bs : List Byte} {r0 c r : Nat},
    (c, r) ∈ spriteDots r0 bs ↔ c < 8 ∧ r0 ≤ r ∧ r < r0 + bs.length ∧ (bs.getD (r - r0) 0).getLsbD (7 - c) = true
  | [], r0, c, r => by simp [spriteDots]
  | b :: bs, r0, c, r => by
    rw [spriteDots, List.mem_append, mem_spriteDots (bs := bs), List.mem_map]
    simp only [Prod.mk.injEq, List.length_cons]
    constructor
    · rintro (⟨c', hc, rfl, rfl⟩ | ⟨h1, h2, h3, h4⟩)
      · obtain ⟨h5, h6⟩ := mem_rowDots.1 hc
        exact ⟨h5, by omega, by omega, by simpa using h6⟩
      · rw [show r - (r0 + 1) = (r - r0) - 1 by omega] at h4
        refine ⟨h1, by omega, by omega, ?_⟩
        rw [show r - r0 = (r - r0 - 1) + 1 by omega]
        exact h4
    · rintro ⟨h1, h2, h3, h4⟩
      by_cases hr : r = r0
      · subst hr
        exact .inl ⟨c, mem_rowDots.2 ⟨h1, by simpa using h4⟩, rfl, rfl⟩
      · rw [show r - r0 = (r - (r0 + 1)) + 1 by omega] at h4
        exact .inr ⟨h1, by omega, by omega, h4⟩

/-- No set bit of a sprite is listed twice. -/
theorem spriteDots_nodup : ∀ (bs : List Byte) (r0 : Nat), (spriteDots r0 bs).Nodup
  | [], _ => List.nodup_nil
  | b :: bs, r0 => by
    rw [spriteDots, List.nodup_append]
    refine ⟨?_, spriteDots_nodup bs (r0 + 1), ?_⟩
    · refine List.Nodup.map (fun a c h => by simpa using h) ?_
      exact List.Nodup.filter _ List.nodup_range
    · rintro ⟨c, r⟩ h1 ⟨c', r'⟩ h2 h3
      obtain ⟨d, _, hd⟩ := List.mem_map.1 h1
      have h4 := (mem_spriteDots.1 h2).2.1
      simp only [Prod.mk.injEq] at hd h3
      omega

end Sys2Proof.Machine
end

