-- ==== Sys2Proof/Laws/Memory.lean ====
section
/-! SUPPORT. The laws of memory: a read after a write, that every other byte is left alone, and that every memory
operation keeps the canonical form. -/

namespace Sys2Proof.Machine

variable {p : Params}

theorem Memory.find_of_lt : ∀ {m : Memory} {a : Nat}, (∀ c ∈ m, a < c.1) → Memory.find m a = none
  | [], _, _ => rfl
  | (k, b) :: m, a, h => by
    have hk : a < k := h (k, b) (by simp)
    rw [Memory.find, if_neg (by omega)]
    exact Memory.find_of_lt fun c hc => h c (by simp [hc])

theorem Memory.find_put : ∀ (m : Memory) (a : Nat) (e : Option Byte), m.Pairwise (fun c d => c.1 < d.1) →
    ∀ b, Memory.find (Memory.put m a e) b = if b = a then e else Memory.find m b
  | [], a, none, _, b => by simp [Memory.put, Memory.find]
  | [], a, some v, _, b => by simp [Memory.put, Memory.find, eq_comm]
  | (k, c) :: m, a, e, h, b => by
    have hm := (List.pairwise_cons.1 h).2
    have hk : ∀ d ∈ m, k < d.1 := fun d hd => (List.pairwise_cons.1 h).1 d hd
    have ih := Memory.find_put m a e hm b
    unfold Memory.put
    by_cases h1 : k < a
    · rw [if_pos h1, Memory.find, ih, Memory.find]
      by_cases h2 : k = b
      · rw [if_pos h2, if_pos h2, if_neg (by omega)]
      · rw [if_neg h2, if_neg h2]
    · rw [if_neg h1]
      by_cases h3 : k = a
      · subst h3
        cases e with
        | none =>
          by_cases h4 : b = k
          · simp only [if_true, if_pos h4]; exact h4 ▸ Memory.find_of_lt hk
          · simp [Memory.find, h4, Ne.symm h4]
        | some v =>
          by_cases h4 : b = k
          · simp [Memory.find, h4]
          · simp [Memory.find, h4, Ne.symm h4]
      · cases e with
        | none =>
          by_cases h4 : b = a
          · simp only [if_neg h3, if_pos h4]
            subst h4
            refine Memory.find_of_lt fun d hd => ?_
            rcases List.mem_cons.1 hd with rfl | hd
            · show b < k; omega
            · have := hk d hd; omega
          · simp [h3, h4]
        | some v =>
          by_cases h4 : b = a
          · simp [Memory.find, h3, h4]
          · simp [Memory.find, h3, h4, Ne.symm h4]

/-- An operation on one address leaves every other address's entry alone, in canonical form or not. -/
theorem Memory.find_put_ne : ∀ (m : Memory) (a : Nat) (e : Option Byte) (b : Nat), b ≠ a →
    Memory.find (Memory.put m a e) b = Memory.find m b
  | [], a, none, b, _ => rfl
  | [], a, some v, b, h => by simp [Memory.put, Memory.find, Ne.symm h]
  | (k, c) :: m, a, e, b, h => by
    unfold Memory.put
    by_cases h1 : k < a
    · rw [if_pos h1, Memory.find, Memory.find_put_ne m a e b h, Memory.find]
    · rw [if_neg h1]
      cases e with
      | none =>
        by_cases h3 : k = a
        · simp [Memory.find, h3, Ne.symm h]
        · simp [h3]
      | some v => by_cases h3 : k = a <;> simp [Memory.find, h3, Ne.symm h]

theorem Memory.mem_put : ∀ (m : Memory) (a : Nat) (e : Option Byte) (c : Host.Cell), c ∈ Memory.put m a e →
    (c.1 = a ∧ e = some c.2) ∨ c ∈ m
  | [], a, none, c, h => by simp [Memory.put] at h
  | [], a, some v, c, h => by
    simp [Memory.put] at h
    subst h
    exact .inl ⟨rfl, rfl⟩
  | (k, d) :: m, a, e, c, h => by
    unfold Memory.put at h
    by_cases h1 : k < a
    · rw [if_pos h1] at h
      rcases List.mem_cons.1 h with rfl | h
      · exact .inr (by simp)
      · exact (Memory.mem_put m a e c h).imp id fun x => List.mem_cons_of_mem _ x
    · rw [if_neg h1] at h
      cases e with
      | none =>
        by_cases h3 : k = a
        · simp only [if_pos h3] at h; exact .inr (List.mem_cons_of_mem _ h)
        · simp only [if_neg h3] at h; exact .inr h
      | some v =>
        by_cases h3 : k = a
        · simp only [if_pos h3] at h
          rcases List.mem_cons.1 h with rfl | h
          · exact .inl ⟨rfl, rfl⟩
          · exact .inr (List.mem_cons_of_mem _ h)
        · simp only [if_neg h3] at h
          rcases List.mem_cons.1 h with rfl | h
          · exact .inl ⟨rfl, rfl⟩
          · exact .inr h

theorem Memory.put_sorted : ∀ (m : Memory) (a : Nat) (e : Option Byte), m.Pairwise (fun c d => c.1 < d.1) →
    (Memory.put m a e).Pairwise (fun c d => c.1 < d.1)
  | [], _, none, _ => by simp [Memory.put]
  | [], _, some _, _ => by simp [Memory.put]
  | (k, d) :: m, a, e, h => by
    have hm := (List.pairwise_cons.1 h).2
    have hk : ∀ c ∈ m, k < c.1 := fun c hc => (List.pairwise_cons.1 h).1 c hc
    unfold Memory.put
    by_cases h1 : k < a
    · rw [if_pos h1]
      refine List.pairwise_cons.2 ⟨fun c hc => ?_, Memory.put_sorted m a e hm⟩
      rcases Memory.mem_put m a e c hc with ⟨h2, _⟩ | h2
      · show k < c.1; omega
      · exact hk c h2
    · rw [if_neg h1]
      cases e with
      | none => by_cases h3 : k = a <;> simp only [h3, if_true, if_false] <;> first | exact hm | exact h
      | some v =>
        by_cases h3 : k = a
        · simp only [if_pos h3]
          exact List.pairwise_cons.2 ⟨fun c hc => by have := hk c hc; show a < c.1; omega, hm⟩
        · simp only [if_neg h3]
          refine List.pairwise_cons.2 ⟨fun c hc => ?_, h⟩
          rcases List.mem_cons.1 hc with rfl | hc
          · show a < k; omega
          · have := hk c hc; show a < c.1; omega

/-! ### one byte -/

/-- A byte reads as what was last written to it, and every other byte as before. -/
theorem Memory.read_write {m : Memory} (h : Memory.wf p m) (a : Nat) (b : Byte) (k : Nat) :
    Memory.read p (Memory.write p m a b) k = if k = a then b else Memory.read p m k := by
  unfold Memory.read Memory.write
  rw [Memory.find_put m a _ h.1]
  by_cases hk : k = a
  · subst hk
    by_cases hb : b = resetByte p k <;> simp [hb]
  · simp [hk]

/-- A write leaves every other byte alone, in canonical form or not. -/
theorem Memory.read_write_ne (m : Memory) {a k : Nat} (b : Byte) (h : k ≠ a) :
    Memory.read p (Memory.write p m a b) k = Memory.read p m k := by
  unfold Memory.read Memory.write
  rw [Memory.find_put_ne m a _ k h]

/-- A write inside the memory keeps the canonical form. -/
theorem Memory.write_wf {m : Memory} (h : Memory.wf p m) {a : Nat} (ha : a < p.memSize) (b : Byte) :
    Memory.wf p (Memory.write p m a b) := by
  refine ⟨Memory.put_sorted _ _ _ h.1, fun c hc => ?_⟩
  rcases Memory.mem_put _ _ _ c hc with ⟨h1, h2⟩ | h1
  · by_cases hb : b = resetByte p a
    · simp [hb] at h2
    · simp only [if_neg hb, Option.some.injEq] at h2
      exact ⟨h1 ▸ ha, h1 ▸ h2 ▸ hb⟩
  · exact h.2 c h1

/-- The addresses listed after a write: the one written, or one listed before. -/
theorem Memory.write_addresses {m : Memory} {a : Nat} {b : Byte} {c : Host.Cell}
    (hc : c ∈ Memory.write p m a b) : c.1 = a ∨ c ∈ m :=
  (Memory.mem_put _ _ _ c hc).imp And.left id

/-! ### several bytes -/

theorem Memory.writeList_wf : ∀ (bs : List Byte) {m : Memory} (a : Nat), Memory.wf p m →
    a + bs.length ≤ p.memSize → Memory.wf p (Memory.writeList p m a bs)
  | [], _, _, h, _ => h
  | b :: bs, m, a, h, hl => by
    simp only [List.length_cons] at hl
    exact Memory.writeList_wf bs (a + 1) (Memory.write_wf h (by omega) b) (by omega)

/-- Every byte after a run of writes: the written value inside the run, what it was outside. -/
theorem Memory.read_writeList : ∀ (bs : List Byte) {m : Memory} (a : Nat), Memory.wf p m →
    a + bs.length ≤ p.memSize → ∀ k, Memory.read p (Memory.writeList p m a bs) k =
      if a ≤ k ∧ k < a + bs.length then bs.getD (k - a) 0 else Memory.read p m k
  | [], m, a, _, _, k => by rw [if_neg (by intro hc; simp at hc; omega), Memory.writeList]
  | b :: bs, m, a, h, hl, k => by
    simp only [List.length_cons] at hl ⊢
    rw [Memory.writeList, Memory.read_writeList bs (a + 1) (Memory.write_wf h (by omega) b) (by omega),
      Memory.read_write h]
    rcases Nat.lt_trichotomy k a with c | c | c
    · rw [if_neg (by omega), if_neg (by omega), if_neg (by omega)]
    · subst c
      rw [if_neg (by omega), if_pos rfl, if_pos (by omega), Nat.sub_self]; rfl
    · by_cases h2 : k < a + 1 + bs.length
      · rw [if_pos (by omega), if_pos (by omega), show k - a = (k - (a + 1)) + 1 by omega]; rfl
      · rw [if_neg (by omega), if_neg (by omega), if_neg (by omega)]

/-- A run of writes leaves every byte outside it alone, in canonical form or not. -/
theorem Memory.read_writeList_outside : ∀ (bs : List Byte) (m : Memory) (a k : Nat), k < a ∨ a + bs.length ≤ k →
    Memory.read p (Memory.writeList p m a bs) k = Memory.read p m k
  | [], _, _, _, _ => rfl
  | b :: bs, m, a, k, h => by
    simp only [List.length_cons] at h
    rw [Memory.writeList, Memory.read_writeList_outside bs _ (a + 1) k (by omega),
      Memory.read_write_ne m b (by omega)]

theorem Memory.writeList_addresses : ∀ (bs : List Byte) {m : Memory} (a : Nat) {c : Host.Cell},
    c ∈ Memory.writeList p m a bs → (a ≤ c.1 ∧ c.1 < a + bs.length) ∨ c ∈ m
  | [], _, _, _, hc => .inr hc
  | b :: bs, m, a, c, hc => by
    simp only [List.length_cons]
    rcases Memory.writeList_addresses bs (a + 1) hc with h | h
    · exact .inl (by omega)
    · rcases Memory.write_addresses h with h | h
      · exact .inl (by omega)
      · exact .inr h

@[simp] theorem Memory.readList_length (m : Memory) : ∀ (n a : Nat), (Memory.readList p m a n).length = n
  | 0, _ => rfl
  | n + 1, a => by rw [Memory.readList, List.length_cons, Memory.readList_length m n]

/-- The bytes a read answers, one by one. -/
theorem Memory.getD_readList (m : Memory) : ∀ (n a k : Nat), k < n →
    (Memory.readList p m a n).getD k 0 = Memory.read p m (a + k)
  | 0, _, _, h => absurd h (by omega)
  | n + 1, a, 0, _ => rfl
  | n + 1, a, k + 1, h => by
    show (Memory.readList p m (a + 1) n).getD k 0 = _
    rw [Memory.getD_readList m n (a + 1) k (by omega)]
    congr 1
    omega

end Sys2Proof.Machine
end

