-- ==== Sys2Proof/Laws/State.lean ====
section
/-! SUPPORT. One lemma per field per update of State, each true by rfl, and what an update leaves of a register read
and of a byte read. -/

namespace Sys2Proof.Machine

variable (s : State)


/-! ### setReg -/

@[simp] theorem State.setReg_cfg (x : RegIdx) (b : Byte) : (s.setReg x b).cfg = s.cfg := rfl
@[simp] theorem State.setReg_i (x : RegIdx) (b : Byte) : (s.setReg x b).i = s.i := rfl
@[simp] theorem State.setReg_pc (x : RegIdx) (b : Byte) : (s.setReg x b).pc = s.pc := rfl
@[simp] theorem State.setReg_sp (x : RegIdx) (b : Byte) : (s.setReg x b).sp = s.sp := rfl
@[simp] theorem State.setReg_stack (x : RegIdx) (b : Byte) : (s.setReg x b).stack = s.stack := rfl
@[simp] theorem State.setReg_dt (x : RegIdx) (b : Byte) : (s.setReg x b).dt = s.dt := rfl
@[simp] theorem State.setReg_st (x : RegIdx) (b : Byte) : (s.setReg x b).st = s.st := rfl
@[simp] theorem State.setReg_mem (x : RegIdx) (b : Byte) : (s.setReg x b).mem = s.mem := rfl
@[simp] theorem State.setReg_disp (x : RegIdx) (b : Byte) : (s.setReg x b).disp = s.disp := rfl
@[simp] theorem State.setReg_err (x : RegIdx) (b : Byte) : (s.setReg x b).err = s.err := rfl
@[simp] theorem State.setReg_script (x : RegIdx) (b : Byte) : (s.setReg x b).script = s.script := rfl
@[simp] theorem State.setReg_turnNo (x : RegIdx) (b : Byte) : (s.setReg x b).turnNo = s.turnNo := rfl
@[simp] theorem State.setReg_byteAt (x : RegIdx) (b : Byte) (m : Nat) : (s.setReg x b).byteAt m = s.byteAt m := rfl

/-! ### setFlag -/

@[simp] theorem State.setFlag_cfg (f : Bool) : (s.setFlag f).cfg = s.cfg := rfl
@[simp] theorem State.setFlag_i (f : Bool) : (s.setFlag f).i = s.i := rfl
@[simp] theorem State.setFlag_pc (f : Bool) : (s.setFlag f).pc = s.pc := rfl
@[simp] theorem State.setFlag_sp (f : Bool) : (s.setFlag f).sp = s.sp := rfl
@[simp] theorem State.setFlag_stack (f : Bool) : (s.setFlag f).stack = s.stack := rfl
@[simp] theorem State.setFlag_dt (f : Bool) : (s.setFlag f).dt = s.dt := rfl
@[simp] theorem State.setFlag_st (f : Bool) : (s.setFlag f).st = s.st := rfl
@[simp] theorem State.setFlag_mem (f : Bool) : (s.setFlag f).mem = s.mem := rfl
@[simp] theorem State.setFlag_disp (f : Bool) : (s.setFlag f).disp = s.disp := rfl
@[simp] theorem State.setFlag_err (f : Bool) : (s.setFlag f).err = s.err := rfl
@[simp] theorem State.setFlag_script (f : Bool) : (s.setFlag f).script = s.script := rfl
@[simp] theorem State.setFlag_turnNo (f : Bool) : (s.setFlag f).turnNo = s.turnNo := rfl
@[simp] theorem State.setFlag_byteAt (f : Bool) (m : Nat) : (s.setFlag f).byteAt m = s.byteAt m := rfl

/-! ### setRegFlag -/

@[simp] theorem State.setRegFlag_cfg (x : RegIdx) (b : Byte) (f : Bool) : (s.setRegFlag x b f).cfg = s.cfg := rfl
@[simp] theorem State.setRegFlag_i (x : RegIdx) (b : Byte) (f : Bool) : (s.setRegFlag x b f).i = s.i := rfl
@[simp] theorem State.setRegFlag_pc (x : RegIdx) (b : Byte) (f : Bool) : (s.setRegFlag x b f).pc = s.pc := rfl
@[simp] theorem State.setRegFlag_sp (x : RegIdx) (b : Byte) (f : Bool) : (s.setRegFlag x b f).sp = s.sp := rfl
@[simp] theorem State.setRegFlag_stack (x : RegIdx) (b : Byte) (f : Bool) : (s.setRegFlag x b f).stack = s.stack := rfl
@[simp] theorem State.setRegFlag_dt (x : RegIdx) (b : Byte) (f : Bool) : (s.setRegFlag x b f).dt = s.dt := rfl
@[simp] theorem State.setRegFlag_st (x : RegIdx) (b : Byte) (f : Bool) : (s.setRegFlag x b f).st = s.st := rfl
@[simp] theorem State.setRegFlag_mem (x : RegIdx) (b : Byte) (f : Bool) : (s.setRegFlag x b f).mem = s.mem := rfl
@[simp] theorem State.setRegFlag_disp (x : RegIdx) (b : Byte) (f : Bool) : (s.setRegFlag x b f).disp = s.disp := rfl
@[simp] theorem State.setRegFlag_err (x : RegIdx) (b : Byte) (f : Bool) : (s.setRegFlag x b f).err = s.err := rfl
@[simp] theorem State.setRegFlag_script (x : RegIdx) (b : Byte) (f : Bool) : (s.setRegFlag x b f).script = s.script := rfl
@[simp] theorem State.setRegFlag_turnNo (x : RegIdx) (b : Byte) (f : Bool) : (s.setRegFlag x b f).turnNo = s.turnNo := rfl
@[simp] theorem State.setRegFlag_byteAt (x : RegIdx) (b : Byte) (f : Bool) (m : Nat) : (s.setRegFlag x b f).byteAt m = s.byteAt m := rfl

/-! ### setI -/

@[simp] theorem State.setI_cfg (a : Word) : (s.setI a).cfg = s.cfg := rfl
@[simp] theorem State.setI_v (a : Word) : (s.setI a).v = s.v := rfl
@[simp] theorem State.setI_i (a : Word) : (s.setI a).i = a := rfl
@[simp] theorem State.setI_pc (a : Word) : (s.setI a).pc = s.pc := rfl
@[simp] theorem State.setI_sp (a : Word) : (s.setI a).sp = s.sp := rfl
@[simp] theorem State.setI_stack (a : Word) : (s.setI a).stack = s.stack := rfl
@[simp] theorem State.setI_dt (a : Word) : (s.setI a).dt = s.dt := rfl
@[simp] theorem State.setI_st (a : Word) : (s.setI a).st = s.st := rfl
@[simp] theorem State.setI_mem (a : Word) : (s.setI a).mem = s.mem := rfl
@[simp] theorem State.setI_disp (a : Word) : (s.setI a).disp = s.disp := rfl
@[simp] theorem State.setI_err (a : Word) : (s.setI a).err = s.err := rfl
@[simp] theorem State.setI_script (a : Word) : (s.setI a).script = s.script := rfl
@[simp] theorem State.setI_turnNo (a : Word) : (s.setI a).turnNo = s.turnNo := rfl
@[simp] theorem State.setI_reg (a : Word) (r : RegIdx) : (s.setI a).reg r = s.reg r := rfl
@[simp] theorem State.setI_byteAt (a : Word) (m : Nat) : (s.setI a).byteAt m = s.byteAt m := rfl

/-! ### setDt -/

@[simp] theorem State.setDt_cfg (b : Byte) : (s.setDt b).cfg = s.cfg := rfl
@[simp] theorem State.setDt_v (b : Byte) : (s.setDt b).v = s.v := rfl
@[simp] theorem State.setDt_i (b : Byte) : (s.setDt b).i = s.i := rfl
@[simp] theorem State.setDt_pc (b : Byte) : (s.setDt b).pc = s.pc := rfl
@[simp] theorem State.setDt_sp (b : Byte) : (s.setDt b).sp = s.sp := rfl
@[simp] theorem State.setDt_stack (b : Byte) : (s.setDt b).stack = s.stack := rfl
@[simp] theorem State.setDt_dt (b : Byte) : (s.setDt b).dt = b := rfl
@[simp] theorem State.setDt_st (b : Byte) : (s.setDt b).st = s.st := rfl
@[simp] theorem State.setDt_mem (b : Byte) : (s.setDt b).mem = s.mem := rfl
@[simp] theorem State.setDt_disp (b : Byte) : (s.setDt b).disp = s.disp := rfl
@[simp] theorem State.setDt_err (b : Byte) : (s.setDt b).err = s.err := rfl
@[simp] theorem State.setDt_script (b : Byte) : (s.setDt b).script = s.script := rfl
@[simp] theorem State.setDt_turnNo (b : Byte) : (s.setDt b).turnNo = s.turnNo := rfl
@[simp] theorem State.setDt_reg (b : Byte) (r : RegIdx) : (s.setDt b).reg r = s.reg r := rfl
@[simp] theorem State.setDt_byteAt (b : Byte) (m : Nat) : (s.setDt b).byteAt m = s.byteAt m := rfl

/-! ### setSt -/

@[simp] theorem State.setSt_cfg (b : Byte) : (s.setSt b).cfg = s.cfg := rfl
@[simp] theorem State.setSt_v (b : Byte) : (s.setSt b).v = s.v := rfl
@[simp] theorem State.setSt_i (b : Byte) : (s.setSt b).i = s.i := rfl
@[simp] theorem State.setSt_pc (b : Byte) : (s.setSt b).pc = s.pc := rfl
@[simp] theorem State.setSt_sp (b : Byte) : (s.setSt b).sp = s.sp := rfl
@[simp] theorem State.setSt_stack (b : Byte) : (s.setSt b).stack = s.stack := rfl
@[simp] theorem State.setSt_dt (b : Byte) : (s.setSt b).dt = s.dt := rfl
@[simp] theorem State.setSt_st (b : Byte) : (s.setSt b).st = b := rfl
@[simp] theorem State.setSt_mem (b : Byte) : (s.setSt b).mem = s.mem := rfl
@[simp] theorem State.setSt_disp (b : Byte) : (s.setSt b).disp = s.disp := rfl
@[simp] theorem State.setSt_err (b : Byte) : (s.setSt b).err = s.err := rfl
@[simp] theorem State.setSt_script (b : Byte) : (s.setSt b).script = s.script := rfl
@[simp] theorem State.setSt_turnNo (b : Byte) : (s.setSt b).turnNo = s.turnNo := rfl
@[simp] theorem State.setSt_reg (b : Byte) (r : RegIdx) : (s.setSt b).reg r = s.reg r := rfl
@[simp] theorem State.setSt_byteAt (b : Byte) (m : Nat) : (s.setSt b).byteAt m = s.byteAt m := rfl

/-! ### setDisp -/

@[simp] theorem State.setDisp_cfg (d : Display) : (s.setDisp d).cfg = s.cfg := rfl
@[simp] theorem State.setDisp_v (d : Display) : (s.setDisp d).v = s.v := rfl
@[simp] theorem State.setDisp_i (d : Display) : (s.setDisp d).i = s.i := rfl
@[simp] theorem State.setDisp_pc (d : Display) : (s.setDisp d).pc = s.pc := rfl
@[simp] theorem State.setDisp_sp (d : Display) : (s.setDisp d).sp = s.sp := rfl
@[simp] theorem State.setDisp_stack (d : Display) : (s.setDisp d).stack = s.stack := rfl
@[simp] theorem State.setDisp_dt (d : Display) : (s.setDisp d).dt = s.dt := rfl
@[simp] theorem State.setDisp_st (d : Display) : (s.setDisp d).st = s.st := rfl
@[simp] theorem State.setDisp_mem (d : Display) : (s.setDisp d).mem = s.mem := rfl
@[simp] theorem State.setDisp_disp (d : Display) : (s.setDisp d).disp = d := rfl
@[simp] theorem State.setDisp_err (d : Display) : (s.setDisp d).err = s.err := rfl
@[simp] theorem State.setDisp_script (d : Display) : (s.setDisp d).script = s.script := rfl
@[simp] theorem State.setDisp_turnNo (d : Display) : (s.setDisp d).turnNo = s.turnNo := rfl
@[simp] theorem State.setDisp_reg (d : Display) (r : RegIdx) : (s.setDisp d).reg r = s.reg r := rfl
@[simp] theorem State.setDisp_byteAt (d : Display) (m : Nat) : (s.setDisp d).byteAt m = s.byteAt m := rfl

/-! ### setPc -/

@[simp] theorem State.setPc_cfg (a : Word) : (s.setPc a).cfg = s.cfg := rfl
@[simp] theorem State.setPc_v (a : Word) : (s.setPc a).v = s.v := rfl
@[simp] theorem State.setPc_i (a : Word) : (s.setPc a).i = s.i := rfl
@[simp] theorem State.setPc_pc (a : Word) : (s.setPc a).pc = a := rfl
@[simp] theorem State.setPc_sp (a : Word) : (s.setPc a).sp = s.sp := rfl
@[simp] theorem State.setPc_stack (a : Word) : (s.setPc a).stack = s.stack := rfl
@[simp] theorem State.setPc_dt (a : Word) : (s.setPc a).dt = s.dt := rfl
@[simp] theorem State.setPc_st (a : Word) : (s.setPc a).st = s.st := rfl
@[simp] theorem State.setPc_mem (a : Word) : (s.setPc a).mem = s.mem := rfl
@[simp] theorem State.setPc_disp (a : Word) : (s.setPc a).disp = s.disp := rfl
@[simp] theorem State.setPc_err (a : Word) : (s.setPc a).err = s.err := rfl
@[simp] theorem State.setPc_script (a : Word) : (s.setPc a).script = s.script := rfl
@[simp] theorem State.setPc_turnNo (a : Word) : (s.setPc a).turnNo = s.turnNo := rfl
@[simp] theorem State.setPc_reg (a : Word) (r : RegIdx) : (s.setPc a).reg r = s.reg r := rfl
@[simp] theorem State.setPc_byteAt (a : Word) (m : Nat) : (s.setPc a).byteAt m = s.byteAt m := rfl

/-! ### advance -/

@[simp] theorem State.advance_cfg : (s.advance).cfg = s.cfg := rfl
@[simp] theorem State.advance_v : (s.advance).v = s.v := rfl
@[simp] theorem State.advance_i : (s.advance).i = s.i := rfl
@[simp] theorem State.advance_pc : (s.advance).pc = s.pc + 2 := rfl
@[simp] theorem State.advance_sp : (s.advance).sp = s.sp := rfl
@[simp] theorem State.advance_stack : (s.advance).stack = s.stack := rfl
@[simp] theorem State.advance_dt : (s.advance).dt = s.dt := rfl
@[simp] theorem State.advance_st : (s.advance).st = s.st := rfl
@[simp] theorem State.advance_mem : (s.advance).mem = s.mem := rfl
@[simp] theorem State.advance_disp : (s.advance).disp = s.disp := rfl
@[simp] theorem State.advance_err : (s.advance).err = s.err := rfl
@[simp] theorem State.advance_script : (s.advance).script = s.script := rfl
@[simp] theorem State.advance_turnNo : (s.advance).turnNo = s.turnNo := rfl
@[simp] theorem State.advance_reg (r : RegIdx) : (s.advance).reg r = s.reg r := rfl
@[simp] theorem State.advance_byteAt (m : Nat) : (s.advance).byteAt m = s.byteAt m := rfl

/-! ### skipIf -/

@[simp] theorem State.skipIf_cfg (c : Bool) : (s.skipIf c).cfg = s.cfg := rfl
@[simp] theorem State.skipIf_v (c : Bool) : (s.skipIf c).v = s.v := rfl
@[simp] theorem State.skipIf_i (c : Bool) : (s.skipIf c).i = s.i := rfl
@[simp] theorem State.skipIf_pc (c : Bool) : (s.skipIf c).pc = s.pc + if c then 4 else 2 := rfl
@[simp] theorem State.skipIf_sp (c : Bool) : (s.skipIf c).sp = s.sp := rfl
@[simp] theorem State.skipIf_stack (c : Bool) : (s.skipIf c).stack = s.stack := rfl
@[simp] theorem State.skipIf_dt (c : Bool) : (s.skipIf c).dt = s.dt := rfl
@[simp] theorem State.skipIf_st (c : Bool) : (s.skipIf c).st = s.st := rfl
@[simp] theorem State.skipIf_mem (c : Bool) : (s.skipIf c).mem = s.mem := rfl
@[simp] theorem State.skipIf_disp (c : Bool) : (s.skipIf c).disp = s.disp := rfl
@[simp] theorem State.skipIf_err (c : Bool) : (s.skipIf c).err = s.err := rfl
@[simp] theorem State.skipIf_script (c : Bool) : (s.skipIf c).script = s.script := rfl
@[simp] theorem State.skipIf_turnNo (c : Bool) : (s.skipIf c).turnNo = s.turnNo := rfl
@[simp] theorem State.skipIf_reg (c : Bool) (r : RegIdx) : (s.skipIf c).reg r = s.reg r := rfl
@[simp] theorem State.skipIf_byteAt (c : Bool) (m : Nat) : (s.skipIf c).byteAt m = s.byteAt m := rfl

/-! ### raise -/

@[simp] theorem State.raise_cfg (w : Option Word) (e : Raised) : (s.raise w e).cfg = s.cfg := rfl
@[simp] theorem State.raise_v (w : Option Word) (e : Raised) : (s.raise w e).v = s.v := rfl
@[simp] theorem State.raise_i (w : Option Word) (e : Raised) : (s.raise w e).i = s.i := rfl
@[simp] theorem State.raise_pc (w : Option Word) (e : Raised) : (s.raise w e).pc = s.pc := rfl
@[simp] theorem State.raise_sp (w : Option Word) (e : Raised) : (s.raise w e).sp = s.sp := rfl
@[simp] theorem State.raise_stack (w : Option Word) (e : Raised) : (s.raise w e).stack = s.stack := rfl
@[simp] theorem State.raise_dt (w : Option Word) (e : Raised) : (s.raise w e).dt = s.dt := rfl
@[simp] theorem State.raise_st (w : Option Word) (e : Raised) : (s.raise w e).st = s.st := rfl
@[simp] theorem State.raise_mem (w : Option Word) (e : Raised) : (s.raise w e).mem = s.mem := rfl
@[simp] theorem State.raise_disp (w : Option Word) (e : Raised) : (s.raise w e).disp = s.disp := rfl
@[simp] theorem State.raise_err (w : Option Word) (e : Raised) : (s.raise w e).err = some ⟨e.code, s.pc, w, e.info⟩ := rfl
@[simp] theorem State.raise_script (w : Option Word) (e : Raised) : (s.raise w e).script = s.script := rfl
@[simp] theorem State.raise_turnNo (w : Option Word) (e : Raised) : (s.raise w e).turnNo = s.turnNo := rfl
@[simp] theorem State.raise_reg (w : Option Word) (e : Raised) (r : RegIdx) : (s.raise w e).reg r = s.reg r := rfl
@[simp] theorem State.raise_byteAt (w : Option Word) (e : Raised) (m : Nat) : (s.raise w e).byteAt m = s.byteAt m := rfl

/-! ### tick -/

@[simp] theorem State.tick_cfg : (s.tick).cfg = s.cfg := rfl
@[simp] theorem State.tick_v : (s.tick).v = s.v := rfl
@[simp] theorem State.tick_i : (s.tick).i = s.i := rfl
@[simp] theorem State.tick_pc : (s.tick).pc = s.pc := rfl
@[simp] theorem State.tick_sp : (s.tick).sp = s.sp := rfl
@[simp] theorem State.tick_stack : (s.tick).stack = s.stack := rfl
@[simp] theorem State.tick_dt : (s.tick).dt = countDown s.dt := rfl
@[simp] theorem State.tick_st : (s.tick).st = countDown s.st := rfl
@[simp] theorem State.tick_mem : (s.tick).mem = s.mem := rfl
@[simp] theorem State.tick_disp : (s.tick).disp = s.disp := rfl
@[simp] theorem State.tick_err : (s.tick).err = s.err := rfl
@[simp] theorem State.tick_script : (s.tick).script = s.script := rfl
@[simp] theorem State.tick_turnNo : (s.tick).turnNo = s.turnNo := rfl
@[simp] theorem State.tick_reg (r : RegIdx) : (s.tick).reg r = s.reg r := rfl
@[simp] theorem State.tick_byteAt (m : Nat) : (s.tick).byteAt m = s.byteAt m := rfl

/-! ### endTurn -/

@[simp] theorem State.endTurn_cfg : (s.endTurn).cfg = s.cfg := rfl
@[simp] theorem State.endTurn_v : (s.endTurn).v = s.v := rfl
@[simp] theorem State.endTurn_i : (s.endTurn).i = s.i := rfl
@[simp] theorem State.endTurn_pc : (s.endTurn).pc = s.pc := rfl
@[simp] theorem State.endTurn_sp : (s.endTurn).sp = s.sp := rfl
@[simp] theorem State.endTurn_stack : (s.endTurn).stack = s.stack := rfl
@[simp] theorem State.endTurn_dt : (s.endTurn).dt = s.dt := rfl
@[simp] theorem State.endTurn_st : (s.endTurn).st = s.st := rfl
@[simp] theorem State.endTurn_mem : (s.endTurn).mem = s.mem := rfl
@[simp] theorem State.endTurn_disp : (s.endTurn).disp = s.disp := rfl
@[simp] theorem State.endTurn_err : (s.endTurn).err = s.err := rfl
@[simp] theorem State.endTurn_script : (s.endTurn).script = s.script.tail := rfl
@[simp] theorem State.endTurn_turnNo : (s.endTurn).turnNo = s.turnNo + 1 := rfl
@[simp] theorem State.endTurn_reg (r : RegIdx) : (s.endTurn).reg r = s.reg r := rfl
@[simp] theorem State.endTurn_byteAt (m : Nat) : (s.endTurn).byteAt m = s.byteAt m := rfl

/-! ### register reads after register writes -/

theorem State.reg_setReg (x : RegIdx) (b : Byte) (r : RegIdx) :
    (s.setReg x b).reg r = if r = x then b else s.reg r := by
  unfold State.reg State.setReg
  by_cases h : r = x
  · subst h; simp
  · rw [if_neg h]
    exact Vector.getElem_set_ne (by exact x.isLt) (by exact r.isLt) fun e => h (BitVec.eq_of_toNat_eq e.symm)

theorem State.reg_setFlag (f : Bool) (r : RegIdx) :
    (s.setFlag f).reg r = if r = vf then (if f then 0x01 else 0x00) else s.reg r := s.reg_setReg _ _ _

/-- A flagged result: VF holds the flag whatever X is (R24, R151). -/
theorem State.reg_setRegFlag (x : RegIdx) (b : Byte) (f : Bool) (r : RegIdx) :
    (s.setRegFlag x b f).reg r =
      if r = vf then (if f then 0x01 else 0x00) else if r = x then b else s.reg r := by
  unfold State.setRegFlag
  rw [State.reg_setFlag, State.reg_setReg]

/-! ### setRegs -/

/-- Whatever `setReg` keeps, `setRegs` keeps. -/
theorem State.setRegs_keeps {α : Type} (f : State → α) (h : ∀ s x b, f (State.setReg s x b) = f s) :
    ∀ (bs : List Byte) (k : Nat) (s : State), f (s.setRegs k bs) = f s
  | [], _, _ => rfl
  | _ :: bs, k, s => (State.setRegs_keeps f h bs (k + 1) _).trans (h s _ _)

@[simp] theorem State.setRegs_cfg (k : Nat) (bs : List Byte) : (s.setRegs k bs).cfg = s.cfg :=
  State.setRegs_keeps (·.cfg) (fun _ _ _ => rfl) bs k s
@[simp] theorem State.setRegs_i (k : Nat) (bs : List Byte) : (s.setRegs k bs).i = s.i :=
  State.setRegs_keeps (·.i) (fun _ _ _ => rfl) bs k s
@[simp] theorem State.setRegs_pc (k : Nat) (bs : List Byte) : (s.setRegs k bs).pc = s.pc :=
  State.setRegs_keeps (·.pc) (fun _ _ _ => rfl) bs k s
@[simp] theorem State.setRegs_sp (k : Nat) (bs : List Byte) : (s.setRegs k bs).sp = s.sp :=
  State.setRegs_keeps (·.sp) (fun _ _ _ => rfl) bs k s
@[simp] theorem State.setRegs_stack (k : Nat) (bs : List Byte) : (s.setRegs k bs).stack = s.stack :=
  State.setRegs_keeps (·.stack) (fun _ _ _ => rfl) bs k s
@[simp] theorem State.setRegs_dt (k : Nat) (bs : List Byte) : (s.setRegs k bs).dt = s.dt :=
  State.setRegs_keeps (·.dt) (fun _ _ _ => rfl) bs k s
@[simp] theorem State.setRegs_st (k : Nat) (bs : List Byte) : (s.setRegs k bs).st = s.st :=
  State.setRegs_keeps (·.st) (fun _ _ _ => rfl) bs k s
@[simp] theorem State.setRegs_mem (k : Nat) (bs : List Byte) : (s.setRegs k bs).mem = s.mem :=
  State.setRegs_keeps (·.mem) (fun _ _ _ => rfl) bs k s
@[simp] theorem State.setRegs_disp (k : Nat) (bs : List Byte) : (s.setRegs k bs).disp = s.disp :=
  State.setRegs_keeps (·.disp) (fun _ _ _ => rfl) bs k s
@[simp] theorem State.setRegs_err (k : Nat) (bs : List Byte) : (s.setRegs k bs).err = s.err :=
  State.setRegs_keeps (·.err) (fun _ _ _ => rfl) bs k s
@[simp] theorem State.setRegs_script (k : Nat) (bs : List Byte) : (s.setRegs k bs).script = s.script :=
  State.setRegs_keeps (·.script) (fun _ _ _ => rfl) bs k s
@[simp] theorem State.setRegs_turnNo (k : Nat) (bs : List Byte) : (s.setRegs k bs).turnNo = s.turnNo :=
  State.setRegs_keeps (·.turnNo) (fun _ _ _ => rfl) bs k s
@[simp] theorem State.setRegs_byteAt (k : Nat) (bs : List Byte) (a : Nat) :
    (s.setRegs k bs).byteAt a = s.byteAt a := State.setRegs_keeps (·.byteAt a) (fun _ _ _ => rfl) bs k s

/-- Register `r` after a block of at most 16 - k bytes went into the registers from `k` up (R207). -/
theorem State.reg_setRegs : ∀ (bs : List Byte) (k : Nat) (s : State) (r : RegIdx), k + bs.length ≤ 16 →
    (s.setRegs k bs).reg r =
      if k ≤ r.toNat ∧ r.toNat < k + bs.length then bs.getD (r.toNat - k) 0 else s.reg r
  | [], k, s, r, _ => by
    rw [if_neg (by intro hc; simp at hc; omega), State.setRegs]
  | b :: bs, k, s, r, h => by
    have hr : r.toNat < 16 := r.isLt
    simp only [List.length_cons] at h ⊢
    rw [State.setRegs, State.reg_setRegs bs (k + 1) _ r (by omega), State.reg_setReg]
    have hk : (r = BitVec.ofNat 4 k) ↔ r.toNat = k := by
      rw [← BitVec.toNat_inj, BitVec.toNat_ofNat, Nat.mod_eq_of_lt (by omega)]
    rcases Nat.lt_trichotomy r.toNat k with c | c | c
    · rw [if_neg (by omega), if_neg (fun e => by have := hk.1 e; omega), if_neg (by omega)]
    · rw [if_neg (by omega), if_pos (hk.2 c), if_pos (by omega), c, Nat.sub_self]; rfl
    · by_cases hl : r.toNat < k + 1 + bs.length
      · rw [if_pos ⟨by omega, hl⟩, if_pos (by omega), show r.toNat - k = (r.toNat - (k + 1)) + 1 by omega]; rfl
      · rw [if_neg (by omega), if_neg (fun e => by have := hk.1 e; omega), if_neg (by omega)]

end Sys2Proof.Machine
end

