-- ==== Sys2Proof/Laws/Ops.lean ====
section
/-! SUPPORT. One lemma per shared operation that says what it answers. -/

namespace Sys2Proof.Machine

variable {s t : State}

/-! ### memory primitives (R67, R68) -/

@[simp] theorem State.memRead_zero (s : State) (a : Nat) : s.memRead a 0 = .ok [] := rfl

theorem State.memRead_inRange {a n : Nat} (hn : 1 ≤ n) (h : a + n ≤ s.cfg.memSize) :
    s.memRead a n = .ok (Memory.readList s.cfg s.mem a n) := by
  unfold State.memRead
  rw [if_neg (by omega), if_neg (by omega)]

theorem State.memRead_outOfRange {a n : Nat} (hn : 1 ≤ n) (h : s.cfg.memSize < a + n) :
    s.memRead a n = .error ⟨.memoryRange, max a s.cfg.memSize⟩ := by
  unfold State.memRead
  rw [if_neg (by omega), if_pos (by omega)]

theorem State.memWrite_inRange {a : Nat} {bs : List Byte} (hn : 1 ≤ bs.length) (h : a + bs.length ≤ s.cfg.memSize)
    (hl : s.cfg.loadBase ≤ a) : s.memWrite a bs = .ok { s with mem := Memory.writeList s.cfg s.mem a bs } := by
  unfold State.memWrite
  rw [if_neg (by omega), if_neg (by omega)]

theorem State.memWrite_outOfRange {a : Nat} {bs : List Byte}
    (h : s.cfg.memSize < a + bs.length) : s.memWrite a bs = .error ⟨.memoryRange, max a s.cfg.memSize⟩ := by
  unfold State.memWrite
  rw [if_pos (by omega)]

theorem State.memWrite_reserved {a : Nat} {bs : List Byte} (hn : 1 ≤ bs.length)
    (h : a + bs.length ≤ s.cfg.memSize) (hl : a < s.cfg.loadBase) : s.memWrite a bs = .error ⟨.reservedWrite, a⟩ := by
  unfold State.memWrite
  rw [if_neg (by omega), if_pos hl]

/-- Everything `MemWrite` can answer when it answers a state. -/
theorem State.memWrite_ok {a : Nat} {bs : List Byte} (hn : 1 ≤ bs.length) (h : s.memWrite a bs = .ok t) :
    s.cfg.loadBase ≤ a ∧ a + bs.length ≤ s.cfg.memSize ∧ t = { s with mem := Memory.writeList s.cfg s.mem a bs } := by
  unfold State.memWrite at h
  split at h
  · cases h
  · split at h
    · cases h
    · cases h; exact ⟨by omega, by omega, rfl⟩

@[simp] theorem State.blockRegs_length (s : State) (x : RegIdx) : (s.blockRegs x).length = x.toNat + 1 := by
  simp [State.blockRegs]

/-- The `k`-th byte of a block is `V[k]` (R206). -/
theorem State.blockRegs_getD (s : State) (x : RegIdx) {k : Nat} (h : k ≤ x.toNat) :
    (s.blockRegs x).getD k 0 = s.reg (BitVec.ofNat 4 k) := by
  have hk : k < x.toNat + 1 := by omega
  simp [State.blockRegs, List.getD_eq_getElem?_getD, hk]

/-! ### fetch (R63, R65) -/

theorem State.fetch_misaligned (h : s.pc.toNat % 2 ≠ s.cfg.loadBase % 2) :
    s.fetch = .error ⟨.pcMisaligned, s.pc.toNat⟩ := by
  unfold State.fetch
  rw [if_pos h]

theorem State.fetch_outOfRange (ha : s.pc.toNat % 2 = s.cfg.loadBase % 2) (h : s.cfg.memSize ≤ s.pc.toNat + 1) :
    s.fetch = .error ⟨.memoryRange, max s.pc.toNat s.cfg.memSize⟩ := by
  unfold State.fetch
  rw [if_neg (by omega), if_pos h]
  by_cases h2 : s.cfg.memSize ≤ s.pc.toNat
  · rw [if_pos h2, Nat.max_eq_left h2]
  · rw [if_neg h2, Nat.max_eq_right (by omega), show s.pc.toNat + 1 = s.cfg.memSize by omega]

theorem State.fetch_inRange (ha : s.pc.toNat % 2 = s.cfg.loadBase % 2) (h : s.pc.toNat + 1 < s.cfg.memSize) :
    s.fetch = .ok (wordOfBytes (s.byteAt s.pc.toNat) (s.byteAt (s.pc.toNat + 1))) := by
  unfold State.fetch
  rw [if_neg (by omega), if_neg (by omega)]

/-! ### stack (R32) -/

theorem State.push_room {a : Word} (h : s.sp.toNat < 16) :
    s.push a = .ok { s with stack := s.stack.set s.sp.toNat a h, sp := s.sp + 1 } := by
  unfold State.push
  rw [dif_pos h]

theorem State.push_full {a : Word} (h : 16 ≤ s.sp.toNat) : s.push a = .error ⟨.stackOverflow, 16⟩ := by
  unfold State.push
  rw [dif_neg (by omega)]

theorem State.pop_empty (h : s.sp = 0) : s.pop = .error ⟨.stackUnderflow, 0⟩ := by
  unfold State.pop
  rw [if_pos h]

theorem State.pop_live (h : s.sp ≠ 0) :
    s.pop = .ok ({ s with sp := s.sp - 1 }, s.stack[(s.sp - 1).toNat]?.getD 0) := by
  unfold State.pop
  rw [if_neg h]

/-! ### ending a cycle -/

@[simp] theorem State.conclude_ok (s : State) (i : Instr) (t : State) : s.conclude i (.ok t) = .next t := rfl

@[simp] theorem State.conclude_error (s : State) (i : Instr) (e : Raised) :
    s.conclude i (.error e) = .next (s.raise (some (encode i)) e) := rfl

/-- Everything a concluded cycle can leave. -/
theorem State.conclude_next {i : Instr} {r : Except Raised State} (h : s.conclude i r = .next t) :
    r = .ok t ∨ ∃ e, r = .error e ∧ t = s.raise (some (encode i)) e := by
  cases r with
  | ok u => cases h; exact .inl rfl
  | error e => cases h; exact .inr ⟨e, rfl, rfl⟩

theorem State.guardSp_le {o : Host.Outcome State Fault Refusal} (h : s.sp.toNat ≤ 16) : s.guardSp o = o := by
  unfold State.guardSp
  rw [if_neg (by omega)]

theorem State.guardSp_next {o : Host.Outcome State Fault Refusal} (h : s.guardSp o = .next t) :
    s.sp.toNat ≤ 16 ∧ o = .next t := by
  unfold State.guardSp at h
  split at h
  · cases h
  · exact ⟨by omega, h⟩

/-! ### checked indexes (R226) -/

theorem checkedIndex_ok {v : Byte} (h : v.toNat ≤ 15) : checkedIndex v = .ok (v.setWidth 4) := by
  unfold checkedIndex
  rw [if_neg (by omega)]

theorem checkedIndex_error {v : Byte} (h : 15 < v.toNat) : checkedIndex v = .error ⟨.indexRange, v.toNat⟩ := by
  unfold checkedIndex
  rw [if_pos h]

/-! ### host turns -/

/-- The turn depends on the host's side and on whether a timer runs, on nothing else. -/
theorem State.turn_congr (hs : t.script = s.script) (hn : t.turnNo = s.turnNo) (hd : t.dt = s.dt)
    (hst : t.st = s.st) : t.turn = s.turn := by
  unfold State.turn State.freeTurn State.timersRun
  rw [hs, hn, hd, hst]

theorem State.turn_of_script {h : HostTurn} {hs : List HostTurn} (e : s.script = h :: hs) : s.turn = h := by
  unfold State.turn
  rw [e]

theorem endTurnOf_next {o : Host.Outcome State Fault Refusal} (h : endTurnOf o = .next t) :
    ∃ u, o = .next u ∧ t = u.endTurn := by
  cases o with
  | next u => cases h; exact ⟨u, rfl, rfl⟩
  | fault f => cases h
  | refused r => cases h

end Sys2Proof.Machine
end

