-- ==== Sys2Proof/Laws/Exec.lean ====
section
/-! SUPPORT. What `exec` and `step` can do, said once: every claim over all instructions or all steps starts here. -/

namespace Sys2Proof.Machine

variable {s t : State} {i : Instr}

/-- The writes a completed instruction makes, by the shape of its effect. -/
inductive Effect (s : State) : Instr → State → Prop where
  | cls : Effect s .cls (s.setDisp (blankDisplay s.cfg)).advance
  | ret (h : s.sp ≠ 0) (hl : s.sp.toNat ≤ 16) :
      Effect s .ret (State.setPc { s with sp := s.sp - 1 } (s.stack[(s.sp - 1).toNat]?.getD 0))
  | jp (nnn) : Effect s (.jp nnn) (s.setPc (absAddr nnn))
  | call (nnn) (h : s.sp.toNat < 16) : Effect s (.call nnn)
      (State.setPc { s with stack := s.stack.set s.sp.toNat (s.pc + 2) h, sp := s.sp + 1 } (absAddr nnn))
  | seByte (x nn) : Effect s (.seByte x nn) (s.skipIf (s.reg x == nn))
  | sneByte (x nn) : Effect s (.sneByte x nn) (s.skipIf (s.reg x != nn))
  | seReg (x y n) : Effect s (.seReg x y n) (s.skipIf (s.reg x == s.reg y))
  | sneReg (x y n) : Effect s (.sneReg x y n) (s.skipIf (s.reg x != s.reg y))
  | jpV0 (nnn) : Effect s (.jpV0 nnn) (s.setPc (absAddr nnn + zext16 (s.reg 0)))
  | ldByte (x nn) : Effect s (.ldByte x nn) (s.setReg x nn).advance
  | addByte (x nn) : Effect s (.addByte x nn) (s.setReg x (s.reg x + nn)).advance
  | ldReg (x y) : Effect s (.ldReg x y) (s.setReg x (s.reg y)).advance
  | orReg (x y) : Effect s (.orReg x y) (s.setReg x (s.reg x ||| s.reg y)).advance
  | andReg (x y) : Effect s (.andReg x y) (s.setReg x (s.reg x &&& s.reg y)).advance
  | xorReg (x y) : Effect s (.xorReg x y) (s.setReg x (s.reg x ^^^ s.reg y)).advance
  | addReg (x y) : Effect s (.addReg x y)
      (s.setRegFlag x (s.reg x + s.reg y) (carryFlag (s.reg x) (s.reg y))).advance
  | subReg (x y) : Effect s (.subReg x y)
      (s.setRegFlag x (s.reg x - s.reg y) (noBorrowFlag (s.reg x) (s.reg y))).advance
  | shr (x y) : Effect s (.shr x y)
      (s.setRegFlag x (s.shiftSource x y >>> 1) (droppedLow (s.shiftSource x y))).advance
  | subn (x y) : Effect s (.subn x y)
      (s.setRegFlag x (s.reg y - s.reg x) (noBorrowFlag (s.reg y) (s.reg x))).advance
  | shl (x y) : Effect s (.shl x y)
      (s.setRegFlag x (s.shiftSource x y <<< 1) (droppedHigh (s.shiftSource x y))).advance
  | rnd (x nn) : Effect s (.rnd x nn) (s.setReg x (s.rnd &&& nn)).advance
  | drw (x y n) (rows) (h : s.memRead s.i.toNat n.toNat = .ok rows) : Effect s (.drw x y n) (s.drawSprite x y rows)
  | skp (x k) (h : checkedIndex (s.reg x) = .ok k) : Effect s (.skp x) (s.skipIf (s.keyDown k))
  | sknp (x k) (h : checkedIndex (s.reg x) = .ok k) : Effect s (.sknp x) (s.skipIf (!s.keyDown k))
  | ldVxDt (x) : Effect s (.ldVxDt x) (s.setReg x s.dt).advance
  | blocked (x) (h : s.keyEvent = none) : Effect s (.ldVxK x) s
  | ldVxK (x k) (h : s.keyEvent = some k) : Effect s (.ldVxK x) (s.setReg x (k.setWidth 8)).advance
  | ldDtVx (x) : Effect s (.ldDtVx x) (s.setDt (s.reg x)).advance
  | ldStVx (x) : Effect s (.ldStVx x) (s.setSt (s.reg x)).advance
  | ldI (nnn) : Effect s (.ldI nnn) (s.setI (absAddr nnn)).advance
  | addI (x) : Effect s (.addI x) (s.setI (s.i + zext16 (s.reg x))).advance
  | ldF (x d) (h : checkedIndex (s.reg x) = .ok d) : Effect s (.ldF x) (s.setI (s.glyphAddr d)).advance
  | ldB (x u) (h : s.memWrite s.i.toNat (bcdDigits (s.reg x)) = .ok u) : Effect s (.ldB x) u.advance
  | storeBlock (x u) (h : s.memWrite s.i.toNat (s.blockRegs x) = .ok u) : Effect s (.storeBlock x) u.advance
  | loadBlock (x bs) (h : s.memRead s.i.toNat (x.toNat + 1) = .ok bs) :
      Effect s (.loadBlock x) (s.setRegs 0 bs).advance

theorem map_ok {α β : Type} {r : Except Raised α} {f : α → β} {b : β} (h : r.map f = .ok b) :
    ∃ a, r = .ok a ∧ f a = b := by
  cases r with
  | ok a => exact ⟨a, rfl, by cases h; rfl⟩
  | error e => cases h

/-- A next state of `exec` is an error entry with the instruction's own word, or the instruction's effect. -/
theorem exec_next (h : exec i s = .next t) : (∃ e, t = s.raise (some (encode i)) e) ∨ Effect s i t := by
  have conc : ∀ {j : Instr} {r : Except Raised State}, s.conclude j r = .next t →
      (∃ e, t = s.raise (some (encode j)) e) ∨ r = .ok t := fun h =>
    (State.conclude_next h).elim .inr fun ⟨e, _, ht⟩ => .inl ⟨e, ht⟩
  cases i with
  | sys nnn =>
    refine (conc (show s.conclude (.sys nnn) (.error _) = _ from h)).imp id fun h => ?_
    cases h
  | cls => cases h; exact .inr .cls
  | ret =>
    obtain ⟨hl, h⟩ := State.guardSp_next h
    refine (conc h).imp id fun h => ?_
    obtain ⟨⟨u, a⟩, hp, rfl⟩ := map_ok h
    by_cases h0 : s.sp = 0
    · rw [State.pop_empty h0] at hp; cases hp
    · rw [State.pop_live h0] at hp; cases hp; exact .ret h0 hl
  | jp nnn => cases h; exact .inr (.jp _)
  | call nnn =>
    obtain ⟨hl, h⟩ := State.guardSp_next h
    refine (conc h).imp id fun h => ?_
    obtain ⟨u, hp, rfl⟩ := map_ok h
    by_cases h0 : s.sp.toNat < 16
    · rw [State.push_room h0] at hp; cases hp; exact .call nnn h0
    · rw [State.push_full (by omega)] at hp; cases hp
  | seByte x nn => cases h; exact .inr (.seByte _ _)
  | sneByte x nn => cases h; exact .inr (.sneByte _ _)
  | seReg x y n => cases h; exact .inr (.seReg _ _ _)
  | ldByte x nn => cases h; exact .inr (.ldByte _ _)
  | addByte x nn => cases h; exact .inr (.addByte _ _)
  | ldReg x y => cases h; exact .inr (.ldReg _ _)
  | orReg x y => cases h; exact .inr (.orReg _ _)
  | andReg x y => cases h; exact .inr (.andReg _ _)
  | xorReg x y => cases h; exact .inr (.xorReg _ _)
  | addReg x y => cases h; exact .inr (.addReg _ _)
  | subReg x y => cases h; exact .inr (.subReg _ _)
  | shr x y => cases h; exact .inr (.shr _ _)
  | subn x y => cases h; exact .inr (.subn _ _)
  | shl x y => cases h; exact .inr (.shl _ _)
  | sneReg x y n => cases h; exact .inr (.sneReg _ _ _)
  | ldI nnn => cases h; exact .inr (.ldI _)
  | jpV0 nnn => cases h; exact .inr (.jpV0 _)
  | rnd x nn => cases h; exact .inr (.rnd _ _)
  | drw x y n =>
    refine (conc h).imp id fun h => ?_
    obtain ⟨rows, hr, rfl⟩ := map_ok h
    exact .drw x y n rows hr
  | skp x =>
    refine (conc h).imp id fun h => ?_
    obtain ⟨k, hk, rfl⟩ := map_ok h
    exact .skp x k hk
  | sknp x =>
    refine (conc h).imp id fun h => ?_
    obtain ⟨k, hk, rfl⟩ := map_ok h
    exact .sknp x k hk
  | ldVxDt x => cases h; exact .inr (.ldVxDt _)
  | ldVxK x =>
    cases h
    cases hk : s.keyEvent with
    | none => exact .inr (.blocked x hk)
    | some k => exact .inr (.ldVxK x k hk)
  | ldDtVx x => cases h; exact .inr (.ldDtVx _)
  | ldStVx x => cases h; exact .inr (.ldStVx _)
  | addI x => cases h; exact .inr (.addI _)
  | ldF x =>
    refine (conc h).imp id fun h => ?_
    obtain ⟨k, hk, rfl⟩ := map_ok h
    exact .ldF x k hk
  | ldB x =>
    refine (conc h).imp id fun h => ?_
    obtain ⟨u, hu, rfl⟩ := map_ok h
    exact .ldB x u hu
  | storeBlock x =>
    refine (conc h).imp id fun h => ?_
    obtain ⟨u, hu, rfl⟩ := map_ok h
    exact .storeBlock x u hu
  | loadBlock x =>
    refine (conc h).imp id fun h => ?_
    obtain ⟨bs, hb, rfl⟩ := map_ok h
    exact .loadBlock x bs hb

/-- Everything a step can do when it answers a next state. -/
theorem step_next (h : step s = .next t) :
    (s.turn.tick = true ∧ t = s.tick.endTurn) ∨
    (s.turn.tick = false ∧ s.err = none ∧
      ((∃ e, s.fetch = .error e ∧ t = (s.raise none e).endTurn) ∨
       (∃ w r, s.fetch = .ok w ∧ decodeWord w = .error r ∧
          t = (s.raise (some w) ⟨.unimplementedOpcode, w.toNat⟩).endTurn) ∨
       ∃ w i u, s.fetch = .ok w ∧ decodeWord w = .ok i ∧ exec i s = .next u ∧ t = u.endTurn)) := by
  unfold step State.takeTurn at h
  split at h
  next ht => cases h; exact .inl ⟨ht, rfl⟩
  next ht =>
    refine .inr ⟨by simpa using ht, ?_⟩
    unfold State.coreTurn at h
    split at h
    · cases h
    next he =>
      refine ⟨he, ?_⟩
      obtain ⟨u, hu, rfl⟩ := endTurnOf_next h
      unfold State.coreCycle at hu
      split at hu
      next w hw =>
        unfold State.executeWord at hu
        split at hu
        next i hi => exact .inr (.inr ⟨w, i, u, hw, hi, hu, rfl⟩)
        next r hr => cases hu; exact .inr (.inl ⟨w, r, hw, hr, rfl⟩)
      next e hf => cases hu; exact .inl ⟨e, hf, rfl⟩

/-- An effect leaves the parameters, the host's side and the error latch alone. -/
theorem Effect.keeps (h : Effect s i t) :
    t.cfg = s.cfg ∧ t.script = s.script ∧ t.turnNo = s.turnNo ∧ t.err = s.err := by
  cases h with
  | ldB x u h =>
    unfold State.memWrite at h
    split at h <;> try cases h
    split at h <;> cases h
    exact ⟨rfl, rfl, rfl, rfl⟩
  | storeBlock x u h =>
    unfold State.memWrite at h
    split at h <;> try cases h
    split at h <;> cases h
    exact ⟨rfl, rfl, rfl, rfl⟩
  | loadBlock x bs h => simp
  | _ => exact ⟨rfl, rfl, rfl, rfl⟩

end Sys2Proof.Machine
end

