-- ==== Sys2Proof/Laws/Frames.lean ====
section
/-! SUPPORT. What each shared ending of an instruction does, in the words of Safety.lean: the frame of an advance, of a
jump, of a raise, of a register result, of a store. -/

namespace Sys2Proof.Machine

variable {s : State}

/-! ### operands and PC -/

theorem absAddr_toNat (a : Addr12) : (absAddr a).toNat = a.toNat := by
  have := a.isLt
  rw [absAddr, BitVec.toNat_setWidth]
  omega

theorem zext16_toNat (b : Byte) : (zext16 b).toNat = b.toNat := by
  have := b.isLt
  rw [zext16, BitVec.toNat_setWidth]
  omega

theorem State.advance_advances (s : State) : Advances s s.advance := BitVec.toNat_add s.pc 2

theorem State.setPc_frame (s : State) (a : Word) : OnlyChanges [.pc] s (s.setPc a) := by
  intro p hp
  cases p <;> first | (simp at hp; done) | exact fun _ => rfl | rfl | exact ⟨rfl, rfl⟩

/-- A skip moves PC by 4 or 2 and does nothing else (R26). -/
theorem State.skipIf_moves (s : State) {c : Bool} {P : Prop} [Decidable P] (h : c = decide P) :
    MovesPc s (.next (s.skipIf c)) ((s.pc.toNat + if P then 4 else 2) % 65536) := by
  refine ⟨_, rfl, ?_, s.setPc_frame _⟩
  subst h
  by_cases hp : P <;> simp [State.skipIf, State.setPc, hp, BitVec.toNat_add]

/-! ### raising -/

theorem State.raise_frame (s : State) (w : Option Word) (e : Raised) : OnlyChanges [.err] s (s.raise w e) := by
  intro p hp
  cases p <;> first | (simp at hp; done) | exact fun _ => rfl | rfl | exact ⟨rfl, rfl⟩

/-- A meaning whose result is an error is an error entry (R229). -/
theorem State.conclude_raises (s : State) (i : Instr) (e : Raised) :
    RaisesIn s (s.conclude i (.error e)) i e.code e.info := ⟨_, rfl, s.raise_frame _ _, rfl⟩

/-! ### results -/

theorem State.aluResult_result (s : State) (x : RegIdx) (b : Byte) : ResultIn s (s.aluResult x b) x b.toNat := by
  refine ⟨_, rfl, fun r => ?_, State.advance_advances _, ?_⟩
  · rw [State.advance_reg, State.reg_setReg]; split <;> rfl
  · intro p hp
    cases p <;> first | (simp at hp; done) | exact fun _ => rfl | rfl | exact ⟨rfl, rfl⟩

theorem State.aluFlagged_result (s : State) (x : RegIdx) (b : Byte) (f : Bool) :
    FlaggedResultIn s (s.aluFlagged x b f) x b.toNat f.toNat := by
  refine ⟨_, rfl, fun r => ?_, State.advance_advances _, ?_⟩
  · rw [State.advance_reg, State.reg_setRegFlag]
    by_cases h1 : r = vf
    · cases f <;> simp [h1]
    · by_cases h2 : r = x
      · subst h2; simp [h1]
      · simp [h1, h2]
  · intro p hp
    cases p <;> first | (simp at hp; done) | exact fun _ => rfl | rfl | exact ⟨rfl, rfl⟩

/-! ### stores -/

/-- Everything a store that passes its checks does: each stored byte, and every other byte as before (R68). -/
theorem State.memWrite_stores {a : Nat} {bs : List Byte} (hm : Memory.wf s.cfg s.mem) (hn : 1 ≤ bs.length)
    (h : a + bs.length ≤ s.cfg.memSize) (hl : s.cfg.loadBase ≤ a) :
    ∃ t, s.memWrite a bs = .ok t ∧ (∀ k, k < bs.length → t.byteAt (a + k) = bs.getD k 0) ∧
      SameOutside a bs.length s t ∧ OnlyChanges [.mem] s t := by
  refine ⟨_, State.memWrite_inRange hn h hl, fun k hk => ?_, fun k hk => Memory.read_writeList_outside _ _ _ _ hk, ?_⟩
  · show Memory.read s.cfg (Memory.writeList s.cfg s.mem a bs) _ = _
    rw [Memory.read_writeList _ _ hm h, if_pos (by omega), Nat.add_sub_cancel_left]
  · intro p hp
    cases p <;> first | (simp at hp; done) | exact fun _ => rfl | rfl | exact ⟨rfl, rfl⟩

end Sys2Proof.Machine
end

