-- ==== Sys2Proof/Laws/PerInstr.lean ====
section
/-! SUPPORT. Per instruction: the encoder's word selects the instruction's own row of the opcode map (R100 to R104). -/

namespace Sys2Proof.Laws

theorem nibble_and_ones (c : BitVec 4) : c &&& 0xF#4 = c := BitVec.and_allOnes

theorem byte_and_ones (k : Byte) : k &&& 0xFF#8 = k := BitVec.and_allOnes

theorem packNNN_and (c d : BitVec 4) (a b : Addr12) :
    packNNN c a &&& packNNN d b = packNNN (c &&& d) (a &&& b) := BitVec.and_append

theorem packXNN_and (c d : BitVec 4) (x y : RegIdx) (a b : Byte) :
    packXNN c x a &&& packXNN d y b = packXNN (c &&& d) (x &&& y) (a &&& b) :=
  (packNNN_and c d (x ++ a) (y ++ b)).trans (congrArg (packNNN (c &&& d)) BitVec.and_append)

theorem packXYN_and (c d : BitVec 4) (x y u v : RegIdx) (a b : Nibble) :
    packXYN c x u a &&& packXYN d y v b = packXYN (c &&& d) (x &&& y) (u &&& v) (a &&& b) :=
  (packXNN_and c d x y (u ++ a) (v ++ b)).trans (congrArg (packXNN (c &&& d) (x &&& y)) BitVec.and_append)

/-- Under a mask of its class nibble, a word of format NNN is that nibble. -/
theorem packNNN_class (c : BitVec 4) (a : Addr12) : packNNN c a &&& 0xF000#16 = packNNN c 0 := by
  rw [show 0xF000#16 = packNNN 0xF#4 0#12 from rfl, packNNN_and, BitVec.and_zero, nibble_and_ones]
  rfl

theorem packXNN_class (c : BitVec 4) (x : RegIdx) (k : Byte) : packXNN c x k &&& 0xF000#16 = packXNN c 0 0 :=
  packNNN_class c (x ++ k)

theorem packXYN_class (c : BitVec 4) (x y : RegIdx) (n : Nibble) : packXYN c x y n &&& 0xF000#16 = packXYN c 0 0 0 :=
  packNNN_class c (x ++ (y ++ n))

/-- Under a mask of class and NN, a word of format XNN is those two. -/
theorem packXNN_sub (c : BitVec 4) (x : RegIdx) (k : Byte) : packXNN c x k &&& 0xF0FF#16 = packXNN c 0 k := by
  rw [show 0xF0FF#16 = packXNN 0xF#4 0#4 0xFF#8 from rfl, packXNN_and, BitVec.and_zero, nibble_and_ones, byte_and_ones]
  rfl

/-- Under a mask of class and N, a word of format XYN is those two. -/
theorem packXYN_sub (c : BitVec 4) (x y : RegIdx) (n : Nibble) : packXYN c x y n &&& 0xF00F#16 = packXYN c 0 0 n := by
  rw [show 0xF00F#16 = packXYN 0xF#4 0#4 0#4 0xF#4 from rfl, packXYN_and, BitVec.and_zero, BitVec.and_zero,
    nibble_and_ones, nibble_and_ones]
  rfl

/-- An instruction's word matches its row's pattern under its mask. -/
def SelectsOwnRow.Statement (i : Instr) : Prop := (opcodeRow i).Selects (encode i)

theorem SelectsOwnRow.sys (nnn : Addr12) : SelectsOwnRow.Statement (.sys nnn) :=
  packNNN_class _ _
theorem SelectsOwnRow.cls : SelectsOwnRow.Statement (.cls) :=
  rfl
theorem SelectsOwnRow.ret : SelectsOwnRow.Statement (.ret) :=
  rfl
theorem SelectsOwnRow.jp (nnn : Addr12) : SelectsOwnRow.Statement (.jp nnn) :=
  packNNN_class _ _
theorem SelectsOwnRow.call (nnn : Addr12) : SelectsOwnRow.Statement (.call nnn) :=
  packNNN_class _ _
theorem SelectsOwnRow.seByte (x : RegIdx) (nn : Byte) : SelectsOwnRow.Statement (.seByte x nn) :=
  packXNN_class _ _ _
theorem SelectsOwnRow.sneByte (x : RegIdx) (nn : Byte) : SelectsOwnRow.Statement (.sneByte x nn) :=
  packXNN_class _ _ _
theorem SelectsOwnRow.seReg (x y : RegIdx) (n : Nibble) : SelectsOwnRow.Statement (.seReg x y n) :=
  packXYN_class _ _ _ _
theorem SelectsOwnRow.ldByte (x : RegIdx) (nn : Byte) : SelectsOwnRow.Statement (.ldByte x nn) :=
  packXNN_class _ _ _
theorem SelectsOwnRow.addByte (x : RegIdx) (nn : Byte) : SelectsOwnRow.Statement (.addByte x nn) :=
  packXNN_class _ _ _
theorem SelectsOwnRow.ldReg (x y : RegIdx) : SelectsOwnRow.Statement (.ldReg x y) :=
  packXYN_sub _ _ _ _
theorem SelectsOwnRow.orReg (x y : RegIdx) : SelectsOwnRow.Statement (.orReg x y) :=
  packXYN_sub _ _ _ _
theorem SelectsOwnRow.andReg (x y : RegIdx) : SelectsOwnRow.Statement (.andReg x y) :=
  packXYN_sub _ _ _ _
theorem SelectsOwnRow.xorReg (x y : RegIdx) : SelectsOwnRow.Statement (.xorReg x y) :=
  packXYN_sub _ _ _ _
theorem SelectsOwnRow.addReg (x y : RegIdx) : SelectsOwnRow.Statement (.addReg x y) :=
  packXYN_sub _ _ _ _
theorem SelectsOwnRow.subReg (x y : RegIdx) : SelectsOwnRow.Statement (.subReg x y) :=
  packXYN_sub _ _ _ _
theorem SelectsOwnRow.shr (x y : RegIdx) : SelectsOwnRow.Statement (.shr x y) :=
  packXYN_sub _ _ _ _
theorem SelectsOwnRow.subn (x y : RegIdx) : SelectsOwnRow.Statement (.subn x y) :=
  packXYN_sub _ _ _ _
theorem SelectsOwnRow.shl (x y : RegIdx) : SelectsOwnRow.Statement (.shl x y) :=
  packXYN_sub _ _ _ _
theorem SelectsOwnRow.sneReg (x y : RegIdx) (n : Nibble) : SelectsOwnRow.Statement (.sneReg x y n) :=
  packXYN_class _ _ _ _
theorem SelectsOwnRow.ldI (nnn : Addr12) : SelectsOwnRow.Statement (.ldI nnn) :=
  packNNN_class _ _
theorem SelectsOwnRow.jpV0 (nnn : Addr12) : SelectsOwnRow.Statement (.jpV0 nnn) :=
  packNNN_class _ _
theorem SelectsOwnRow.rnd (x : RegIdx) (nn : Byte) : SelectsOwnRow.Statement (.rnd x nn) :=
  packXNN_class _ _ _
theorem SelectsOwnRow.drw (x y : RegIdx) (n : Nibble) : SelectsOwnRow.Statement (.drw x y n) :=
  packXYN_class _ _ _ _
theorem SelectsOwnRow.skp (x : RegIdx) : SelectsOwnRow.Statement (.skp x) :=
  packXNN_sub _ _ _
theorem SelectsOwnRow.sknp (x : RegIdx) : SelectsOwnRow.Statement (.sknp x) :=
  packXNN_sub _ _ _
theorem SelectsOwnRow.ldVxDt (x : RegIdx) : SelectsOwnRow.Statement (.ldVxDt x) :=
  packXNN_sub _ _ _
theorem SelectsOwnRow.ldVxK (x : RegIdx) : SelectsOwnRow.Statement (.ldVxK x) :=
  packXNN_sub _ _ _
theorem SelectsOwnRow.ldDtVx (x : RegIdx) : SelectsOwnRow.Statement (.ldDtVx x) :=
  packXNN_sub _ _ _
theorem SelectsOwnRow.ldStVx (x : RegIdx) : SelectsOwnRow.Statement (.ldStVx x) :=
  packXNN_sub _ _ _
theorem SelectsOwnRow.addI (x : RegIdx) : SelectsOwnRow.Statement (.addI x) :=
  packXNN_sub _ _ _
theorem SelectsOwnRow.ldF (x : RegIdx) : SelectsOwnRow.Statement (.ldF x) :=
  packXNN_sub _ _ _
theorem SelectsOwnRow.ldB (x : RegIdx) : SelectsOwnRow.Statement (.ldB x) :=
  packXNN_sub _ _ _
theorem SelectsOwnRow.storeBlock (x : RegIdx) : SelectsOwnRow.Statement (.storeBlock x) :=
  packXNN_sub _ _ _
theorem SelectsOwnRow.loadBlock (x : RegIdx) : SelectsOwnRow.Statement (.loadBlock x) :=
  packXNN_sub _ _ _

end Sys2Proof.Laws
end

