-- ==== Sys2Proof/Tests/Slice0.lean ====
section
/-! SUPPORT. The model's own tests, each expected result from spec/95_test_vectors.md (T1 to T7, P1 to P7) or a worked
example of the section file named, and one witness per obligation that has hypotheses. -/

namespace Sys2Proof.Tests

open Sys2Proof.Machine

/-! ## Helpers -/

/-- The next state, if there is one. -/
def after : Host.Outcome State Fault Refusal → Option State
  | .next t => some t
  | .fault _ => none
  | .refused _ => none

/-- Registers set, by number. -/
def withRegs (l : List (RegIdx × Byte)) (s : State) : State := l.foldl (fun t e => t.setReg e.1 e.2) s

/-- Bytes of memory stored. -/
def withMem (a : Nat) (bytes : List Byte) (s : State) : State := s.pokeList a bytes

/-- One fixed turn of the host, the core's. -/
def withInputs (keys : BitVec 16) (keyEvent : Option Key) (rnd : Byte) (s : State) : State :=
  { s with script := [⟨false, keys, keyEvent, rnd⟩] }

/-- One fixed turn of the host, a tick. -/
def withTick (s : State) : State := { s with script := [⟨true, 0, none, 0⟩] }

/-- One step of the word at PC. -/
def run (w : Nat) (s : State) : Option State := after (step (s.withFetchWord 16 w))

/-- The reset state. -/
abbrev start : State := State.reset

/-- What a test of an ALU row looks at: one register, VF and PC. -/
def look (x : RegIdx) (o : Option State) : Option (Byte × Byte × Word) := o.map fun t => (t.reg x, t.reg vf, t.pc)

/-- What a test of an error looks at: the record as the host reads it. -/
def errOf (o : Option State) : Option (Nat × Nat × Option Nat × Nat) := o.bind State.errorReport

/-- The pixels that are 1, row by row. -/
def lit (d : Display) : List (Nat × Nat) :=
  (List.range d.length).flatMap fun y => ((List.range (d.getD y []).length).filter fun x => d.pixel x y).map fun x => (x, y)

/-! ## Well-formedness smoke -/

theorem test_wf_refuses_sys_with_cls_word : ¬ (Instr.sys 0x0E0).WellFormed := by decide
theorem test_wf_refuses_sys_with_ret_word : ¬ (Instr.sys 0x0EE).WellFormed := by decide
theorem test_wf_takes_other_sys : (Instr.sys 0x0E1).WellFormed ∧ (Instr.sys 0).WellFormed ∧ Instr.cls.WellFormed := by
  decide

/-! ## Decoding: a word of every constructor, written out from the tables of 30_encoding.md and T2 to T7 -/

theorem test_decode_class_0 :
    decodeWord 0x0123 = .ok (.sys 0x123) ∧ decodeWord 0x0000 = .ok (.sys 0) ∧ decodeWord 0x01E0 = .ok (.sys 0x1E0) ∧
    decodeWord 0x00E0 = .ok .cls ∧ decodeWord 0x00EE = .ok .ret := by decide
theorem test_decode_control :
    decodeWord 0x1ABC = .ok (.jp 0xABC) ∧ decodeWord 0x2300 = .ok (.call 0x300) ∧
    decodeWord 0x3A42 = .ok (.seByte 0xA 0x42) ∧ decodeWord 0x4A42 = .ok (.sneByte 0xA 0x42) ∧
    decodeWord 0x5127 = .ok (.seReg 1 2 7) ∧ decodeWord 0x912F = .ok (.sneReg 1 2 0xF) ∧
    decodeWord 0xBFFF = .ok (.jpV0 0xFFF) := by decide
theorem test_decode_alu :
    decodeWord 0x63FF = .ok (.ldByte 3 0xFF) ∧ decodeWord 0x7301 = .ok (.addByte 3 1) ∧
    decodeWord 0x8120 = .ok (.ldReg 1 2) ∧ decodeWord 0x8121 = .ok (.orReg 1 2) ∧
    decodeWord 0x8122 = .ok (.andReg 1 2) ∧ decodeWord 0x8123 = .ok (.xorReg 1 2) ∧
    decodeWord 0x8AB4 = .ok (.addReg 0xA 0xB) ∧ decodeWord 0x8015 = .ok (.subReg 0 1) ∧
    decodeWord 0x8126 = .ok (.shr 1 2) ∧ decodeWord 0x8017 = .ok (.subn 0 1) ∧
    decodeWord 0x812E = .ok (.shl 1 2) ∧ decodeWord 0xC30F = .ok (.rnd 3 0x0F) := by decide
theorem test_decode_display : decodeWord 0xD125 = .ok (.drw 1 2 5) ∧ decodeWord 0xDF01 = .ok (.drw 0xF 0 1) := by decide
theorem test_decode_keypad :
    decodeWord 0xE19E = .ok (.skp 1) ∧ decodeWord 0xE1A1 = .ok (.sknp 1) ∧ decodeWord 0xF207 = .ok (.ldVxDt 2) ∧
    decodeWord 0xF10A = .ok (.ldVxK 1) ∧ decodeWord 0xF015 = .ok (.ldDtVx 0) ∧ decodeWord 0xF418 = .ok (.ldStVx 4) := by
  decide
theorem test_decode_memory :
    decodeWord 0xA300 = .ok (.ldI 0x300) ∧ decodeWord 0xF01E = .ok (.addI 0) ∧ decodeWord 0xF129 = .ok (.ldF 1) ∧
    decodeWord 0xF033 = .ok (.ldB 0) ∧ decodeWord 0xF255 = .ok (.storeBlock 2) ∧
    decodeWord 0xF365 = .ok (.loadBlock 3) := by decide
theorem test_decode_rejects :
    decodeWord 0x8128 = .error (.class8 8) ∧ decodeWord 0x812F = .error (.class8 0xF) ∧
    decodeWord 0xE19F = .error (.classE 0x9F) ∧ decodeWord 0xF175 = .error (.classF 0x75) ∧
    decodeBytes [0x00] = .error .truncated := by decide
theorem test_decode_bytes : decodeBytes [0x8A, 0xB4, 0x77] = .ok (.addReg 0xA 0xB, [0x77]) := by decide
theorem test_encode :
    encode (.addReg 0xA 0xB) = 0x8AB4 ∧ encodeBytes (.drw 1 2 5) = [0xD1, 0x25] ∧ encode (.seReg 1 2 7) = 0x5127 := by
  decide
theorem test_table_word :
    decodeTableWord 16 0xF065 = some (.loadBlock 0) ∧ decodeTableWord 16 0x8128 = none := by decide

/-! ## Control transfer (T3) -/

theorem test_sys : errOf (run 0x0123 start) = some (1, 0x200, some 0x0123, 0x123) := by decide
theorem test_jp : (run 0x1ABC start).map (·.pc) = some 0xABC := by decide
theorem test_jp_odd_target :
    errOf (after (step { start with pc := 0x201 })) = some (7, 0x201, none, 0x201) := by decide
theorem test_call :
    (run 0x2300 start).map (fun t => (t.stack[0], t.sp, t.pc)) = some (0x202, 1, 0x300) := by decide
theorem test_call_overflow :
    errOf (run 0x2200 { start with sp := 16 }) = some (2, 0x200, some 0x2200, 16) := by decide
theorem test_ret :
    (run 0x00EE { start with sp := 1, stack := start.stack.set 0 0x202 }).map (fun t => (t.stack[0], t.sp, t.pc)) =
      some (0x202, 0, 0x202) := by decide
theorem test_ret_underflow : errOf (run 0x00EE start) = some (3, 0x200, some 0x00EE, 0) := by decide
theorem test_seByte :
    (run 0x3A42 (withRegs [(0xA, 0x42)] start)).map (·.pc) = some 0x204 ∧
    (run 0x3A42 (withRegs [(0xA, 0x43)] start)).map (·.pc) = some 0x202 := by decide
theorem test_sneByte :
    (run 0x4A42 (withRegs [(0xA, 0x42)] start)).map (·.pc) = some 0x202 ∧
    (run 0x4A42 (withRegs [(0xA, 0x43)] start)).map (·.pc) = some 0x204 := by decide
theorem test_seReg :
    (run 0x5AB0 (withRegs [(0xA, 9), (0xB, 9)] start)).map (·.pc) = some 0x204 ∧
    (run 0x5AB7 (withRegs [(0xA, 9), (0xB, 8)] start)).map (·.pc) = some 0x202 := by decide
theorem test_sneReg :
    (run 0x9AB0 (withRegs [(0xA, 9), (0xB, 8)] start)).map (·.pc) = some 0x204 ∧
    (run 0x9AAF (withRegs [(0xA, 9)] start)).map (·.pc) = some 0x202 := by decide
theorem test_jpV0 : (run 0xBFFF (withRegs [(0, 0xFF)] start)).map (·.pc) = some 0x10FE := by decide
theorem test_fetch_out_of_range :
    errOf (after (step { start with pc := 0x10FE })) = some (4, 0x10FE, none, 0x10FE) ∧
    errOf (after (step { start with pc := 0xFFF })) = some (7, 0xFFF, none, 0xFFF) := by decide
theorem test_fetch_last_word : (run 0x1200 { start with pc := 0xFFE }).map (·.pc) = some 0x200 := by decide

/-! ## The ALU (T4) -/

theorem test_ldByte : look 3 (run 0x63FF start) = some (0xFF, 0, 0x202) := by decide
theorem test_ldByte_vf : look vf (run 0x6F07 start) = some (7, 7, 0x202) := by decide
theorem test_addByte_no_carry_flag :
    look 3 (run 0x7301 (withRegs [(3, 0xFF)] start)) = some (0, 0, 0x202) := by decide
theorem test_addByte : look 1 (run 0x71FF (withRegs [(1, 5), (vf, 9)] start)) = some (4, 9, 0x202) := by decide
theorem test_ldReg : look 1 (run 0x8120 (withRegs [(2, 0x7E)] start)) = some (0x7E, 0, 0x202) := by decide
theorem test_orReg :
    look 1 (run 0x8121 (withRegs [(1, 0xF0), (2, 0x0F), (vf, 1)] start)) = some (0xFF, 1, 0x202) := by decide
theorem test_andReg : look 1 (run 0x8122 (withRegs [(1, 0xF0), (2, 0x3C)] start)) = some (0x30, 0, 0x202) := by decide
theorem test_xorReg : look 1 (run 0x8123 (withRegs [(1, 0xF0), (2, 0x3C)] start)) = some (0xCC, 0, 0x202) := by decide
theorem test_addReg_carry : look 0 (run 0x8014 (withRegs [(0, 250), (1, 10)] start)) = some (4, 1, 0x202) := by decide
theorem test_addReg_into_vf : look vf (run 0x8F14 (withRegs [(vf, 200), (1, 100)] start)) = some (1, 1, 0x202) := by decide
theorem test_subReg_equal : look 0 (run 0x8015 (withRegs [(0, 7), (1, 7)] start)) = some (0, 1, 0x202) := by decide
theorem test_subReg_borrow : look 0 (run 0x8015 (withRegs [(0, 3), (1, 5)] start)) = some (254, 0, 0x202) := by decide
theorem test_subn : look 0 (run 0x8017 (withRegs [(0, 3), (1, 5)] start)) = some (2, 1, 0x202) := by decide
theorem test_subn_borrow : look 0 (run 0x8017 (withRegs [(0, 5), (1, 3)] start)) = some (254, 0, 0x202) := by decide
theorem test_shr : look 1 (run 0x8126 (withRegs [(1, 0x05), (2, 0xAA)] start)) = some (0x02, 1, 0x202) := by decide
theorem test_shr_uses_y :
    look 1 (run 0x8126 (withRegs [(1, 0x05), (2, 0xAA)] { start with cfg := { Config.defaults with shiftUsesY := true } })) =
      some (0x55, 0, 0x202) := by decide
theorem test_shl : look 1 (run 0x810E (withRegs [(1, 0x81)] start)) = some (0x02, 1, 0x202) := by decide
theorem test_shl_uses_y :
    look 1 (run 0x812E (withRegs [(2, 0xC1)] { start with cfg := { Config.defaults with shiftUsesY := true } })) =
      some (0x82, 1, 0x202) := by decide
theorem test_rnd : look 3 (run 0xC30F (withInputs 0 none 0xA7 start)) = some (0x07, 0, 0x202) := by decide

/-! ## The display (T5), on the framebuffer operation and on the instruction -/

theorem test_cls :
    (run 0x00E0 { start with disp := Display.toggle start.disp 5 5 }).map (fun t => (lit t.disp, t.pc)) =
      some ([], 0x202) := by decide +kernel
theorem test_drw_wraps_at_both_edges :
    (run 0xD235 (withRegs [(2, 62), (3, 30)] { start with i := 0x032 })).map (fun t => (lit t.disp, t.reg vf)) =
      some ([(0, 0), (1, 0), (62, 0), (63, 0), (1, 1), (62, 1), (1, 2), (62, 2)] ++
        [(0, 30), (1, 30), (62, 30), (63, 30), (1, 31), (62, 31)], 0) := by decide +kernel
theorem test_drw_collides :
    (run 0xD011 (withMem 0x300 [0xC0] { start with i := 0x300, disp := Display.toggle start.disp 0 0 })).map
      (fun t => (lit t.disp, t.reg vf)) = some ([(1, 0)], 1) := by decide +kernel
theorem test_row_dots : rowDots 0x81 = [0, 7] ∧ spriteDots 0 [0x80, 0x03] = [(0, 0), (6, 1), (7, 1)] := by decide

/-! ## Keypad and timers (T6) -/

theorem test_skp :
    (run 0xE19E (withInputs 0x0080 none 0 (withRegs [(1, 7)] { start with pc := 0x208 }))).map (·.pc) = some 0x20C ∧
    (run 0xE19E (withInputs 0x0000 none 0 (withRegs [(1, 7)] { start with pc := 0x208 }))).map (·.pc) = some 0x20A := by
  decide
theorem test_skp_index :
    errOf (run 0xE19E (withRegs [(1, 16)] start)) = some (6, 0x200, some 0xE19E, 16) := by decide
theorem test_sknp :
    (run 0xE1A1 (withInputs 0x0080 none 0 (withRegs [(1, 7)] { start with pc := 0x208 }))).map (·.pc) = some 0x20A ∧
    (run 0xE1A1 (withInputs 0xFF7F none 0 (withRegs [(1, 7)] { start with pc := 0x208 }))).map (·.pc) = some 0x20C := by
  decide
theorem test_sknp_index :
    errOf (run 0xE1A1 (withRegs [(1, 0xFF)] start)) = some (6, 0x200, some 0xE1A1, 255) := by decide
theorem test_ldVxK_blocks : look 1 (run 0xF10A (withInputs 0 none 0 { start with pc := 0x204 })) = some (0, 0, 0x204) := by
  decide
theorem test_ldVxK_takes_the_key :
    look 1 (run 0xF10A (withInputs 0 (some 7) 0 { start with pc := 0x204 })) = some (7, 0, 0x206) := by decide
theorem test_ldVxDt : look 2 (run 0xF207 (withInputs 0 none 0 { start with dt := 0x3A })) = some (0x3A, 0, 0x202) := by
  decide
theorem test_ldDtVx : (run 0xF015 (withRegs [(0, 60)] start)).map (fun t => (t.dt, t.st)) = some (60, 0) := by decide
theorem test_ldStVx : (run 0xF418 (withRegs [(4, 5)] start)).map (fun t => (t.dt, t.st)) = some (0, 5) := by decide
theorem test_tick :
    (after (step (withTick { start with dt := 60, st := 5 }))).map (fun t => (t.dt, t.st, t.pc)) = some (59, 4, 0x200) ∧
    (after (step (withTick { start with dt := 1, st := 0 }))).map (fun t => (t.dt, t.st, t.pc)) = some (0, 0, 0x200) := by
  decide

/-! ## Address register and memory (T1, T7) -/

theorem test_double_dabble_trace :
    dabble 1 0xE7 = 0x0001CE ∧ dabble 4 0xE7 = 0x001470 ∧ dabble 7 0xE7 = 0x011580 ∧ dabble 8 0xE7 = 0x023100 := by decide
theorem test_bcd_digits : bcdDigits 231 = [2, 3, 1] ∧ bcdDigits 10 = [0, 1, 0] ∧ bcdDigits 199 = [1, 9, 9] := by decide
theorem test_ldI : (run 0xAFFF start).map (·.i) = some 0xFFF := by decide
theorem test_addI_wraps :
    (run 0xF01E (withRegs [(0, 1), (vf, 9)] { start with i := 0xFFFF })).map (fun t => (t.i, t.reg vf)) = some (0, 9) := by
  decide
theorem test_addI : (run 0xF01E (withRegs [(0, 1)] { start with i := 0xFFF })).map (·.i) = some 0x1000 := by decide
theorem test_ldF : (run 0xF129 (withRegs [(1, 0x0F)] start)).map (·.i) = some 0x4B := by decide
theorem test_ldF_index :
    errOf (run 0xF129 (withRegs [(1, 0x10)] start)) = some (6, 0x200, some 0xF129, 16) := by decide
theorem test_ldB :
    (run 0xF033 (withRegs [(0, 231)] { start with i := 0x300 })).map
      (fun t => (t.byteAt 0x300, t.byteAt 0x301, t.byteAt 0x302, t.byteAt 0x303)) = some (2, 3, 1, 0) := by decide
theorem test_ldB_edges :
    errOf (run 0xF033 { start with i := 0xFFE }) = some (4, 0x200, some 0xF033, 0x1000) ∧
    errOf (run 0xF033 { start with i := 0x1FF }) = some (5, 0x200, some 0xF033, 0x1FF) := by decide
theorem test_storeBlock :
    (run 0xF255 (withRegs [(0, 0x11), (1, 0x22), (2, 0x33), (3, 0x44)] { start with i := 0x400 })).map
      (fun t => (t.byteAt 0x400, t.byteAt 0x401, t.byteAt 0x402, t.byteAt 0x403, t.i)) =
      some (0x11, 0x22, 0x33, 0, 0x400) := by decide
theorem test_storeBlock_edges :
    errOf (run 0xFF55 { start with i := 0xFF1 }) = some (4, 0x200, some 0xFF55, 0x1000) ∧
    errOf (run 0xF055 { start with i := 0x000 }) = some (5, 0x200, some 0xF055, 0) := by decide
theorem test_loadBlock_reads_the_font :
    (run 0xF465 (withRegs [(5, 0x77)] start)).map
      (fun t => ([t.reg 0, t.reg 1, t.reg 2, t.reg 3, t.reg 4, t.reg 5], t.i)) =
      some ([0xF0, 0x90, 0x90, 0x90, 0xF0, 0x77], 0) := by decide
theorem test_loadBlock_range :
    errOf (run 0xF065 { start with i := 0xFFFF }) = some (4, 0x200, some 0xF065, 0xFFFF) := by decide

/-! ## Reset and the host's interfaces (R41, R71, R229, R241, R242) -/

theorem test_reset : start.pc = 0x200 ∧ start.sp = 0 ∧ start.byteAt 0x032 = 0xF0 ∧ start.byteAt 0x200 = 0 := by decide
theorem test_halted_core_has_no_step (e : ErrorRecord) : step { start with err := some e } = .fault (.halted e) := rfl
theorem test_output : outputOf .cls start = some start.disp ∧ outputOf .ret start = none := by decide +kernel
theorem test_withFetchWord_runs_the_word : step (start.withFetchWord 16 0xE19E) =
    endTurnOf (exec (.skp 1) (start.withFetchWord 16 0xE19E)) := rfl
theorem test_load : ((after (start.load [0x60, 0xFA])).map fun s => s.fetch) = some (.ok 0x60FA) := by decide

/-! ## Witnesses: for each obligation with hypotheses, a state and operands that meet them, at the ends of the ranges -/

/-- The reset state, and what only I, PC, SP, registers, timers, host turns or the latch tell from it, meet the
invariant. -/
theorem start_inv (s : State) (hc : s.cfg = Config.defaults) (hp : s.sp.toNat ≤ 16) (hm : s.mem = [])
    (hd : s.disp = start.disp) : s.Inv := by
  refine ⟨by rw [hc]; decide, hp, ?_, ?_, ?_⟩
  · rw [hm]; exact ⟨List.Pairwise.nil, fun c h => nomatch h⟩
  · rw [hm]; exact fun c h => nomatch h
  · rw [hd, hc]; exact blankDisplay_wf Config.defaults

theorem witness_DecodeInvertsEncode : (Instr.sys 0x0E1).WellFormed ∧ (Instr.drw 0xF 0xF 0xF).WellFormed := by decide
theorem witness_EncodeInvertsDecode : decodeWord 0x0000 = .ok (.sys 0) ∧ decodeWord 0xFF65 = .ok (.loadBlock 0xF) := by
  decide
theorem witness_DecodedWordMatchesItsRow : decodeWord 0x8FFE = .ok (.shl 0xF 0xF) := by decide
theorem witness_WordsWithoutARowRaise :
    start.CoreReady ∧ (withMem 0x200 [0x8F, 0xFF] start).fetch = .ok 0x8FFF ∧ decodeWord 0x8FFF = .error (.class8 0xF) ∧
    (withMem 0x200 [0xE0, 0x00] start).fetch = .ok 0xE000 ∧ decodeWord 0xE000 = .error (.classE 0) ∧
    (withMem 0x200 [0xFF, 0xFF] start).fetch = .ok 0xFFFF ∧ decodeWord 0xFFFF = .error (.classF 0xFF) := by decide

/-- The clause of a next state, in the last word of memory. -/
theorem witness_StepRunsTheDecodedInstruction :
    ∃ s t : State, s.CoreReady ∧ s.pc.toNat % 2 = s.cfg.loadBase % 2 ∧ s.pc.toNat + 1 < s.cfg.memSize ∧
      Instr.WellFormed (.jp 0x200) ∧
      decodeWord (wordOfBytes (s.byteAt s.pc.toNat) (s.byteAt (s.pc.toNat + 1))) = .ok (.jp 0x200) ∧
      exec (.jp 0x200) s = .next t :=
  ⟨withMem 0xFFE [0x12, 0x00] { start with pc := 0xFFE }, _, by decide, by decide, by decide, by decide, by decide, rfl⟩

/-- The clause of a fault. -/
theorem witness_StepRunsTheDecodedInstruction_fault :
    ∃ s : State, s.CoreReady ∧ s.pc.toNat % 2 = s.cfg.loadBase % 2 ∧ s.pc.toNat + 1 < s.cfg.memSize ∧
      Instr.WellFormed .ret ∧ decodeWord (wordOfBytes (s.byteAt s.pc.toNat) (s.byteAt (s.pc.toNat + 1))) = .ok .ret ∧
      exec .ret s = .fault .stackPointerOutOfRange :=
  ⟨withMem 0x200 [0x00, 0xEE] { start with sp := 17 }, by decide, by decide, by decide, by decide, by decide, rfl⟩

/-- Misaligned inside the memory and outside it; aligned at the last byte of an odd-sized memory, and far outside. -/
theorem witness_FetchErrorsLatch :
    start.CoreReady ∧ (0x201#16).toNat % 2 ≠ Config.defaults.loadBase % 2 ∧
    (0xFFFF#16).toNat % 2 ≠ Config.defaults.loadBase % 2 ∧ (0xFFE#16).toNat % 2 = Config.defaults.loadBase % 2 ∧
    4095 ≤ (0xFFE#16).toNat + 1 ∧ Params.WellFormed { Config.defaults with memSize := 4095 } ∧
    Config.defaults.memSize ≤ (0x1000#16).toNat + 1 ∧ (0x1000#16).toNat % 2 = Config.defaults.loadBase % 2 := by decide

theorem witness_HaltedCoreStaysHalted :
    ∃ (s u : State) (e : ErrorRecord), s.err = some e ∧ s.turn.tick = false ∧ u.err = some e ∧ u.turn.tick = true :=
  ⟨{ start with err := some ⟨.stackOverflow, 0x200, some 0x2200, 16⟩ },
   withTick { start with err := some ⟨.stackOverflow, 0x200, some 0x2200, 16⟩, dt := 1 },
   ⟨.stackOverflow, 0x200, some 0x2200, 16⟩, rfl, rfl, rfl, rfl⟩

/-- An error of the fetch (no word), and one of an instruction. -/
theorem witness_ErrorEntryIsPrecise :
    (∃ (t : State) (e : ErrorRecord), start.err = none ∧ step { start with pc := 0x201 } = .next t ∧ t.err = some e ∧
      e.word = none) ∧
    ∃ (t : State) (e : ErrorRecord), step start = .next t ∧ t.err = some e ∧ e.word = some 0x0000 :=
  ⟨⟨_, _, rfl, rfl, rfl, rfl⟩, ⟨_, _, rfl, rfl, rfl⟩⟩

theorem witness_TickCountsBothTimersDown :
    (withTick start).turn.tick = true ∧ (withTick { start with dt := 1, st := 255 }).turn.tick = true := by decide

theorem witness_StepKeepsTheInvariant :
    ∃ t : State, start.Inv ∧ step start = .next t := ⟨_, start_inv _ rfl (by decide) rfl rfl, rfl⟩

theorem witness_ResetMeetsTheInvariant :
    Params.WellFormed { memSize := 65536, loadBase := 80, fontBase := 0, dispW := 8, dispH := 15, shiftUsesY := true } := by
  decide

theorem witness_ReservedRegionIsNeverWritten : ∃ t : State, step start = .next t ∧ 0x1FF < start.cfg.loadBase :=
  ⟨_, rfl, by decide⟩

/-- Both clauses: the last byte of a BCD store, and the last byte of a block. -/
theorem witness_OnlyTwoInstructionsStore :
    (∃ s t : State, step s = .next t ∧ t.byteAt 0x302 ≠ s.byteAt 0x302) ∧
    ∃ s t : State, step s = .next t ∧ t.byteAt 0x40F ≠ s.byteAt 0x40F :=
  ⟨⟨withMem 0x200 [0xF0, 0x33] (withRegs [(0, 231)] { start with i := 0x300 }), _, rfl, by decide⟩,
   ⟨withMem 0x200 [0xFF, 0x55] (withRegs [(0xF, 1)] { start with i := 0x400 }), _, rfl, by decide⟩⟩

theorem witness_OnlyThreeInstructionsWriteI :
    (∃ s t : State, step s = .next t ∧ t.i = 0x300 ∧ s.i = 0) ∧ (∃ s t : State, step s = .next t ∧ t.i = 7 ∧ s.i = 0) ∧
    ∃ s t : State, step s = .next t ∧ t.i = 0x23 ∧ s.i = 0 :=
  ⟨⟨withMem 0x200 [0xA3, 0x00] start, _, rfl, by decide, rfl⟩,
   ⟨withMem 0x200 [0xF0, 0x1E] (withRegs [(0, 7)] start), _, rfl, by decide, rfl⟩,
   ⟨withMem 0x200 [0xF0, 0x29] (withRegs [(0, 7)] start), _, rfl, by decide, rfl⟩⟩

theorem witness_OnlyClsAndDrwWriteTheDisplay :
    (∃ s t : State, step s = .next t ∧ t.disp ≠ s.disp) ∧ ∃ s t : State, step s = .next t ∧ t.disp ≠ s.disp :=
  ⟨⟨withMem 0x200 [0x00, 0xE0] { start with disp := Display.toggle start.disp 0 0 }, _, rfl, by decide +kernel⟩,
   ⟨withMem 0x200 [0xD0, 0x01] start, _, rfl, by decide +kernel⟩⟩

theorem witness_TimersChangeByTickOrWrite :
    (∃ s t : State, step s = .next t ∧ s.dt = 1 ∧ t.dt = 0 ∧ s.st = 9 ∧ t.st = 8) ∧
    (∃ s t : State, step s = .next t ∧ s.dt = 0 ∧ t.dt = 5) ∧ ∃ s t : State, step s = .next t ∧ s.st = 0 ∧ t.st = 5 :=
  ⟨⟨withTick { start with dt := 1, st := 9 }, _, rfl, rfl, by decide, rfl, by decide⟩,
   ⟨withMem 0x200 [0xF0, 0x15] (withRegs [(0, 5)] start), _, rfl, rfl, by decide⟩,
   ⟨withMem 0x200 [0xF0, 0x18] (withRegs [(0, 5)] start), _, rfl, rfl, by decide⟩⟩

/-- A call into the last entry, and a return from depth 1. -/
theorem witness_StackMovesByCallAndRet :
    (∃ s t : State, step s = .next t ∧ s.sp = 15 ∧ t.sp = 16 ∧ t.stack[15] ≠ s.stack[15]) ∧
    ∃ s t : State, step s = .next t ∧ s.sp = 1 ∧ t.sp = 0 :=
  ⟨⟨withMem 0x200 [0x23, 0x00] { start with sp := 15 }, _, rfl, rfl, by decide, by decide⟩,
   ⟨withMem 0x200 [0x00, 0xEE] { start with sp := 1 }, _, rfl, rfl, by decide⟩⟩

theorem witness_OnlyDestinationRegistersChange :
    (∃ t : State, exec (.ldByte 0xF 7) start = .next t ∧ t.reg 0xF ≠ start.reg 0xF) ∧
    ∃ t : State, exec (.loadBlock 0xE) { start with i := 0x005 } = .next t ∧ t.reg 0xE ≠ start.reg 0xE :=
  ⟨⟨_, rfl, by decide⟩, ⟨_, rfl, by decide⟩⟩

theorem witness_HostInputsReachOnlyFourInstructions :
    ∃ t : State, samplesHost (.addReg 0 1) = false ∧ exec (.addReg 0 1) start = .next t := ⟨_, rfl, rfl⟩

theorem witness_CallPushesTheNextAddress :
    { start with sp := 15 }.sp.toNat < 16 ∧ { start with sp := 16 }.sp.toNat = 16 := by decide
theorem witness_RetPopsTheLastAddress :
    (1 ≤ { start with sp := 1 }.sp.toNat ∧ { start with sp := 1 }.sp.toNat ≤ 16) ∧
    (1 ≤ { start with sp := 16 }.sp.toNat ∧ { start with sp := 16 }.sp.toNat ≤ 16) ∧ start.sp.toNat = 0 := by decide
theorem witness_CallThenRetComesBack : start.sp.toNat < 16 ∧ { start with sp := 15 }.sp.toNat < 16 := by decide
theorem witness_UnproducedStackPointerStops :
    16 < { start with sp := 17 }.sp.toNat ∧ 16 < { start with sp := 255 }.sp.toNat := by decide

theorem witness_RndMasksTheHostsByte : ∃ t : State, exec (.rnd 3 0x0F) (withInputs 0 none 0xA7 start) = .next t :=
  ⟨_, rfl⟩
theorem witness_ClsClearsEveryPixel :
    start.err = none ∧
    ∃ t u : State, exec .cls { start with disp := Display.toggle start.disp 5 5 } = .next t ∧ exec .cls t = .next u :=
  ⟨rfl, _, _, rfl, rfl⟩

/-- No rows at the highest I; the last three bytes of memory; fifteen rows, one that wraps. -/
theorem witness_DrwXorsTheWrappedSprite :
    ({ start with i := 0xFFFF }.Inv ∧ (0 : Nibble) = 0) ∧
    ({ start with i := 0xFFD }.Inv ∧ (0xFFD#16).toNat + (3 : Nibble).toNat ≤ start.cfg.memSize) ∧
    (withRegs [(0, 63), (1, 31)] { start with i := 0xFF1 }).Inv ∧
    (0xFF1#16).toNat + (15 : Nibble).toNat ≤ start.cfg.memSize :=
  ⟨⟨start_inv _ rfl (by decide) rfl rfl, rfl⟩, ⟨start_inv _ rfl (by decide) rfl rfl, by decide⟩,
   start_inv _ rfl (by decide) rfl rfl, by decide⟩

/-- On an empty display, where the last clause applies, and on one with a pixel set. -/
theorem witness_DrawingTwiceRestoresTheDisplay :
    { start with i := 0x032 }.Inv ∧ (0x032#16).toNat + (5 : Nibble).toNat ≤ start.cfg.memSize ∧ (0 : RegIdx) ≠ vf ∧
    (0xE : RegIdx) ≠ vf ∧ (∀ px py, Display.pixel start.disp px py = false) ∧
    Display.wf start.cfg (Display.toggle start.disp 0 0) ∧ Display.pixel (Display.toggle start.disp 0 0) 0 0 = true :=
  ⟨start_inv _ rfl (by decide) rfl rfl, by decide, by decide, by decide, blankDisplay_pixel _,
   Display.toggle_wf (blankDisplay_wf _) 0 0, by decide +kernel⟩

theorem witness_DrwEdgesOfTheRowCount :
    (0 : Nibble) = 0 ∧ (3 : Nibble) ≠ 0 ∧ start.cfg.memSize < { start with i := 0xFFE }.i.toNat + (3 : Nibble).toNat := by
  decide

theorem witness_KeySkipsSampleOneKey :
    ((withRegs [(1, 15)] start).reg 1).toNat ≤ 15 ∧ 15 < ((withRegs [(1, 16)] start).reg 1).toNat := by decide
theorem witness_KeyWaitBlocksOrTakesTheKey :
    (withInputs 0 none 0 start).turn.keyEvent = none ∧ (withInputs 0 (some 15) 0 start).turn.keyEvent = some 15 := by
  decide
theorem witness_GlyphLookupPointsIntoTheFont :
    (withRegs [(1, 15)] start).cfg.WellFormed ∧ ((withRegs [(1, 15)] start).reg 1).toNat ≤ 15 ∧
    15 < ((withRegs [(1, 16)] start).reg 1).toNat := by decide

/-- Both ends of where it stores; the first address out of range; the last reserved one. -/
theorem witness_BcdStoreWritesThreeDigits :
    ({ start with i := 0x200 }.Inv ∧ start.cfg.loadBase ≤ 0x200 ∧ 0x200 + 2 < start.cfg.memSize) ∧
    ({ start with i := 0xFFD }.Inv ∧ start.cfg.loadBase ≤ 0xFFD ∧ 0xFFD + 2 < start.cfg.memSize) ∧
    start.cfg.memSize ≤ { start with i := 0xFFE }.i.toNat + 2 ∧
    ({ start with i := 0x1FF }.i.toNat + 2 < start.cfg.memSize ∧ { start with i := 0x1FF }.i.toNat < start.cfg.loadBase) :=
  ⟨⟨start_inv _ rfl (by decide) rfl rfl, by decide⟩, ⟨start_inv _ rfl (by decide) rfl rfl, by decide⟩, by decide⟩

theorem witness_BlockStoreWritesItsWindow :
    ({ start with i := 0xFF0 }.Inv ∧ start.cfg.loadBase ≤ 0xFF0 ∧ 0xFF0 + (0xF : RegIdx).toNat < start.cfg.memSize) ∧
    ({ start with i := 0x200 }.Inv ∧ start.cfg.loadBase ≤ 0x200 ∧ 0x200 + (0 : RegIdx).toNat < start.cfg.memSize) ∧
    start.cfg.memSize ≤ { start with i := 0xFF1 }.i.toNat + (0xF : RegIdx).toNat ∧
    ({ start with i := 0x1FF }.i.toNat + (0xF : RegIdx).toNat < start.cfg.memSize ∧
      { start with i := 0x1FF }.i.toNat < start.cfg.loadBase) :=
  ⟨⟨start_inv _ rfl (by decide) rfl rfl, by decide⟩, ⟨start_inv _ rfl (by decide) rfl rfl, by decide⟩, by decide⟩

theorem witness_BlockLoadReadsItsWindow :
    { start with i := 0xFF0 }.i.toNat + (0xF : RegIdx).toNat < start.cfg.memSize ∧
    start.cfg.memSize ≤ { start with i := 0xFF1 }.i.toNat + (0xF : RegIdx).toNat := by decide

theorem witness_BlockLoadUndoesBlockStore :
    ∃ t u : State, { start with i := 0xFF0 }.Inv ∧ start.cfg.loadBase ≤ { start with i := 0xFF0 }.i.toNat ∧
      { start with i := 0xFF0 }.i.toNat + (0xF : RegIdx).toNat < start.cfg.memSize ∧
      exec (.storeBlock 0xF) { start with i := 0xFF0 } = .next t ∧ u.cfg = start.cfg ∧ u.mem = t.mem ∧ u.i = 0xFF0 :=
  ⟨_, { start with i := 0xFF0 }, start_inv _ rfl (by decide) rfl rfl, by decide, by decide, rfl, rfl, by decide, rfl⟩

theorem witness_NextFetchSeesTheStore :
    { start with i := 0x202 }.Inv ∧ start.pc.toNat % 2 = start.cfg.loadBase % 2 ∧ (0x202#16).toNat = start.pc.toNat + 2 ∧
    start.cfg.loadBase ≤ (0x202#16).toNat ∧ 1 ≤ (1 : RegIdx).toNat ∧
    (0x202#16).toNat + (1 : RegIdx).toNat < start.cfg.memSize :=
  ⟨start_inv _ rfl (by decide) rfl rfl, by decide⟩

/-- The empty image, and the longest. -/
theorem witness_SessionStartsWithTheListedValues :
    Config.defaults.WellFormed ∧ Config.defaults.loadBase + ([] : List Byte).length ≤ Config.defaults.memSize ∧
    Config.defaults.loadBase + (List.replicate 3584 (0xFF : Byte)).length ≤ Config.defaults.memSize :=
  ⟨by decide, by decide, by rw [List.length_replicate]; decide⟩

theorem witness_OffersOutsideTheContractAreRefused :
    start.cfg.memSize < start.cfg.loadBase + (List.replicate 3585 (0 : Byte)).length ∧ 15 < (16 : Byte).toNat ∧
    (15 : Byte).toNat ≤ 15 :=
  ⟨by rw [List.length_replicate]; decide, by decide, by decide⟩

end Sys2Proof.Tests
end

section
/-! Which instructions write the display (10_state.md, R38). -/

namespace Sys2Proof.Machine

variable {s t : State} {i : Instr}

/-- A part of the state that no tick, no error entry and no end of a turn writes changes in a step only by the effect
of the instruction that the step runs. -/
theorem step_changes_by_effect {α : Type} (f : State → α) (htick : ∀ u : State, f u.tick = f u)
    (hraise : ∀ (u : State) w e, f (u.raise w e) = f u) (hend : ∀ u : State, f u.endTurn = f u)
    (h : step s = .next t) (hne : f t ≠ f s) : ∃ i u, s.Runs i ∧ Effect s i u ∧ f u ≠ f s := by
  obtain ⟨-, rfl⟩ | ⟨-, -, ⟨e, -, rfl⟩ | ⟨w, r, -, -, rfl⟩ | ⟨w, i, u, hfetch, hdec, hexec, rfl⟩⟩ := step_next h
  · exact absurd ((hend _).trans (htick s)) hne
  · exact absurd ((hend _).trans (hraise s _ _)) hne
  · exact absurd ((hend _).trans (hraise s _ _)) hne
  · rw [hend] at hne
    obtain ⟨e, rfl⟩ | heff := exec_next hexec
    · exact absurd (hraise s _ _) hne
    · exact ⟨i, u, ⟨w, hfetch, hdec⟩, heff, hne⟩

/-- A store that passes its checks leaves the display alone (R68). -/
theorem State.memWrite_disp {a : Nat} {bs : List Byte} (hn : 1 ≤ bs.length) (h : s.memWrite a bs = .ok t) :
    t.disp = s.disp := by
  obtain ⟨-, -, rfl⟩ := State.memWrite_ok hn h
  rfl

/-- Only the effects of `CLS` and `DRW` touch the display. -/
theorem Effect.disp_eq_or_cls_or_drw (h : Effect s i t) :
    t.disp = s.disp ∨ i = .cls ∨ ∃ x y n, i = .drw x y n := by
  cases h with
  | cls => exact .inr (.inl rfl)
  | drw x y n rows _ => exact .inr (.inr ⟨x, y, n, rfl⟩)
  | ldB x u hu => exact .inl (u.advance_disp.trans (State.memWrite_disp (by simp [bcdDigits]) hu))
  | storeBlock x u hu => exact .inl (u.advance_disp.trans (State.memWrite_disp (by simp) hu))
  | loadBlock x bs _ => exact .inl (s.setRegs_disp 0 bs)
  | _ => exact .inl rfl

/-- Settles O17: a changed display is changed by the effect of the instruction run, and only two effects touch it. -/
theorem onlyClsAndDrwWriteTheDisplay : Obligations.OnlyClsAndDrwWriteTheDisplay := by
  intro s t h hne
  obtain ⟨i, u, hruns, heff, hne⟩ := step_changes_by_effect (·.disp) State.tick_disp State.raise_disp
    State.endTurn_disp h hne
  obtain hd | rfl | ⟨x, y, n, rfl⟩ := heff.disp_eq_or_cls_or_drw
  · exact absurd hd hne
  · exact .inl hruns
  · exact .inr ⟨x, y, n, hruns⟩

end Sys2Proof.Machine
end

section
/-! The fields of a word and the order of its two bytes (30_encoding.md, R94). -/

namespace Sys2Proof

theorem fieldsOf_nn_eq_append (w : Word) : (fieldsOf w).nn = (fieldsOf w).y ++ (fieldsOf w).n :=
  (BitVec.extractLsb'_append_extractLsb'_eq_extractLsb' (x := w) (show 4 = 0 + 4 from rfl)).symm

theorem fieldsOf_nnn_eq_append (w : Word) :
    (fieldsOf w).nnn = (fieldsOf w).x ++ ((fieldsOf w).y ++ (fieldsOf w).n) := by
  rw [← fieldsOf_nn_eq_append]
  exact (BitVec.extractLsb'_append_extractLsb'_eq_extractLsb' (x := w) (show 8 = 0 + 8 from rfl)).symm

/-- The class is the top nibble, so nothing above it is left to cut off. -/
theorem fieldsOf_cls_toNat_eq_div (w : Word) : (fieldsOf w).cls.toNat = w.toNat / 4096 := by
  have hw : w.toNat < 65536 := w.isLt
  rw [fieldsOf_cls_toNat]
  omega

/-- The first byte fetched is bits 15 to 8 (R94). -/
theorem wordOfBytes_toNat_div (first second : Byte) : (wordOfBytes first second).toNat / 256 = first.toNat := by
  have hs : second.toNat < 256 := second.isLt
  rw [wordOfBytes_toNat]
  omega

/-- The second byte fetched is bits 7 to 0 (R94). -/
theorem wordOfBytes_toNat_mod (first second : Byte) : (wordOfBytes first second).toNat % 256 = second.toNat := by
  have hs : second.toNat < 256 := second.isLt
  rw [wordOfBytes_toNat]
  omega

/-- Settles O3: each field by its number, NN and NNN by the fields they overlap, and the bytes by the word they make. -/
theorem fieldsAreTheNumberedBits : Obligations.FieldsAreTheNumberedBits := by
  refine ⟨fun w => ⟨fieldsOf_cls_toNat_eq_div w, fieldsOf_x_toNat w, fieldsOf_y_toNat w, ?_, ?_, ?_,
    fieldsOf_nn_eq_append w, fieldsOf_nnn_eq_append w⟩,
    fun first second => ⟨wordOfBytes_toNat_div first second, wordOfBytes_toNat_mod first second⟩⟩
  · rw [fieldsOf_n_toNat, Nat.div_one]
  · rw [fieldsOf_nn_toNat, Nat.div_one]
  · rw [fieldsOf_nnn_toNat, Nat.div_one]

end Sys2Proof
end

section
/-! Control transfer: the jumps, `CALL` and `RET` (40_control_flow.md). -/

namespace Sys2Proof.Machine

variable {s t u : State} {ps : List Part}

/-! ### frames, one written part after another -/

theorem OnlyChanges.refl (s : State) : OnlyChanges [] s s := by
  intro p _
  cases p with
  | regs | mem => exact fun _ => rfl
  | host => exact ⟨rfl, rfl⟩
  | _ => rfl

/-- A further write to one part adds that part to the frame. -/
theorem OnlyChanges.cons {q : Part} (h : OnlyChanges ps s t) (hu : ∀ p, p ≠ q → p.Same s t → p.Same s u) :
    OnlyChanges (q :: ps) s u := by
  intro p hp
  obtain ⟨hne, hps⟩ := not_or.1 (mt List.mem_cons.2 hp)
  exact hu p hne (h p hps)

theorem OnlyChanges.setPc (h : OnlyChanges ps s t) (a : Word) : OnlyChanges (.pc :: ps) s (t.setPc a) := by
  refine h.cons fun p hne hp => ?_
  cases p with
  | pc => exact absurd rfl hne
  | _ => exact hp

theorem OnlyChanges.writeSp (h : OnlyChanges ps s t) (b : Byte) : OnlyChanges (.sp :: ps) s { t with sp := b } := by
  refine h.cons fun p hne hp => ?_
  cases p with
  | sp => exact absurd rfl hne
  | _ => exact hp

theorem OnlyChanges.writeStack (h : OnlyChanges ps s t) (k : Vector Word 16) :
    OnlyChanges (.stack :: ps) s { t with stack := k } := by
  refine h.cons fun p hne hp => ?_
  cases p with
  | stack => exact absurd rfl hne
  | _ => exact hp

/-- An outcome that sets PC and writes nothing else is a move of PC to that number. -/
theorem State.setPc_moves (s : State) {a : Word} {n : Nat} (h : a.toNat = n) : MovesPc s (.next (s.setPc a)) n :=
  ⟨_, rfl, h, s.setPc_frame a⟩

/-! ### what the four instructions answer -/

theorem exec_jp (nnn : Addr12) (s : State) : exec (.jp nnn) s = .next (s.setPc (absAddr nnn)) := rfl

theorem exec_jpV0 (nnn : Addr12) (s : State) :
    exec (.jpV0 nnn) s = .next (s.setPc (absAddr nnn + zext16 (s.reg 0))) := rfl

theorem exec_call (nnn : Addr12) (s : State) : exec (.call nnn) s =
    s.guardSp (s.conclude (.call nnn) ((s.push (s.pc + 2)).map fun t => t.setPc (absAddr nnn))) := rfl

theorem exec_ret (s : State) :
    exec .ret s = s.guardSp (s.conclude .ret (s.pop.map fun r => r.1.setPc r.2)) := rfl

theorem exec_call_room (nnn : Addr12) (h : s.sp.toNat < 16) : exec (.call nnn) s = .next
    (State.setPc { s with stack := s.stack.set s.sp.toNat (s.pc + 2) h, sp := s.sp + 1 } (absAddr nnn)) := by
  rw [exec_call, State.guardSp_le (by omega), State.push_room h]
  rfl

theorem exec_call_full (nnn : Addr12) (h : s.sp.toNat = 16) :
    exec (.call nnn) s = s.conclude (.call nnn) (.error ⟨.stackOverflow, 16⟩) := by
  rw [exec_call, State.guardSp_le h.le, State.push_full h.ge]
  rfl

theorem exec_ret_empty (h : s.sp.toNat = 0) : exec .ret s = s.conclude .ret (.error ⟨.stackUnderflow, 0⟩) := by
  rw [exec_ret, State.guardSp_le (by omega), State.pop_empty (BitVec.eq_of_toNat_eq h)]
  rfl

/-- A byte that is not 0, lowered by 1, does not wrap (R30). -/
theorem byte_sub_one_toNat {b : Byte} (h : 1 ≤ b.toNat) : (b - 1).toNat = b.toNat - 1 :=
  BitVec.toNat_sub_of_le (BitVec.le_def.2 h)

/-- With an SP that calls produce, the popped entry is a slot of the array: `pop`'s default is never used (R32). -/
theorem exec_ret_live (h : 1 ≤ s.sp.toNat ∧ s.sp.toNat ≤ 16) : exec .ret s = .next
    (State.setPc { s with sp := s.sp - 1 } (s.stack[s.sp.toNat - 1]'(by omega))) := by
  have hsp : s.sp ≠ 0 := fun h0 => by simp [h0] at h
  have hslot : s.stack[(s.sp - 1).toNat]? = some (s.stack[s.sp.toNat - 1]'(by omega)) := by
    rw [byte_sub_one_toNat h.1, Vector.getElem?_eq_getElem]
  rw [exec_ret, State.guardSp_le h.2, State.pop_live hsp, hslot]
  rfl

/-! ### the obligations -/

/-- Settles O23: the target is NNN, zero-extended. -/
theorem jumpGoesToItsTarget : Obligations.JumpGoesToItsTarget := by
  intro nnn s
  rw [exec_jp]
  exact s.setPc_moves (absAddr_toNat nnn)

/-- Settles O24: the target is the 16-bit sum of the two zero-extended operands. -/
theorem jumpWithOffsetAddsV0 : Obligations.JumpWithOffsetAddsV0 := by
  intro nnn s
  rw [exec_jpV0]
  refine s.setPc_moves ?_
  rw [BitVec.toNat_add, absAddr_toNat, zext16_toNat]

/-- Settles O25: with room the three writes are those of `push` and the jump; with a full stack `push` is an error. -/
theorem callPushesTheNextAddress : Obligations.CallPushesTheNextAddress := by
  refine fun nnn s => ⟨fun h => ?_, fun hfull => ?_⟩
  · have hsp : (s.sp + 1).toNat = s.sp.toNat + 1 :=
      BitVec.toNat_add_of_lt (show s.sp.toNat + 1 < 256 by omega)
    have hslot : ((s.stack.set s.sp.toNat (s.pc + 2) h)[s.sp.toNat]).toNat = (s.pc.toNat + 2) % 65536 := by
      rw [Vector.getElem_set_self]
      exact BitVec.toNat_add s.pc 2
    exact ⟨_, exec_call_room nnn h, absAddr_toNat nnn, hsp, hslot,
      fun k hk hne => Vector.getElem_set_ne h hk hne.symm,
      (((OnlyChanges.refl s).writeStack (s.stack.set s.sp.toNat (s.pc + 2) h)).writeSp (s.sp + 1)).setPc _⟩
  · rw [exec_call_full nnn hfull]
    exact s.conclude_raises _ _

/-- Settles O26: with a live entry the two writes are those of `pop` and the jump; with none `pop` is an error. -/
theorem retPopsTheLastAddress : Obligations.RetPopsTheLastAddress := by
  refine fun s => ⟨fun h => ⟨_, exec_ret_live h, byte_sub_one_toNat h.1, rfl, ?_⟩, fun hempty => ?_⟩
  · exact ((OnlyChanges.refl s).writeSp _).setPc _
  · rw [exec_ret_empty hempty]
    exact s.conclude_raises _ _

end Sys2Proof.Machine
end

section
/-! The ALU: what the register instructions and `RND` answer, and their results as numbers (41_alu.md). -/

namespace Sys2Proof.Machine

variable {s t : State}

/-! ### results and flags as numbers (R150) -/

/-- The carry is the ninth bit of the exact sum. -/
theorem carryFlag_toNat (a b : Byte) : (carryFlag a b).toNat = if 255 < a.toNat + b.toNat then 1 else 0 :=
  Bool.cond_decide _ _ _

/-- Equal operands do not borrow. -/
theorem noBorrowFlag_toNat (a b : Byte) : (noBorrowFlag a b).toNat = if b.toNat ≤ a.toNat then 1 else 0 :=
  Bool.cond_decide _ _ _

/-- The difference modulo 256, with 256 lent first so that the natural subtraction is exact. -/
theorem byte_sub_toNat (a b : Byte) : (a - b).toNat = (256 + a.toNat - b.toNat) % 256 := by
  have hb : b.toNat < 256 := b.isLt
  rw [BitVec.toNat_sub, show 2 ^ 8 - b.toNat + a.toNat = 256 + a.toNat - b.toNat by omega]

/-! ### what the instructions answer -/

theorem exec_ldReg (x y : RegIdx) (s : State) : exec (.ldReg x y) s = s.aluResult x (s.reg y) := rfl

theorem exec_orReg (x y : RegIdx) (s : State) : exec (.orReg x y) s = s.aluResult x (s.reg x ||| s.reg y) := rfl

theorem exec_andReg (x y : RegIdx) (s : State) : exec (.andReg x y) s = s.aluResult x (s.reg x &&& s.reg y) := rfl

theorem exec_xorReg (x y : RegIdx) (s : State) : exec (.xorReg x y) s = s.aluResult x (s.reg x ^^^ s.reg y) := rfl

theorem exec_addReg (x y : RegIdx) (s : State) :
    exec (.addReg x y) s = s.aluFlagged x (s.reg x + s.reg y) (carryFlag (s.reg x) (s.reg y)) := rfl

theorem exec_subReg (x y : RegIdx) (s : State) :
    exec (.subReg x y) s = s.aluFlagged x (s.reg x - s.reg y) (noBorrowFlag (s.reg x) (s.reg y)) := rfl

theorem exec_rnd (x : RegIdx) (nn : Byte) (s : State) : exec (.rnd x nn) s = s.aluResult x (s.turn.rnd &&& nn) := rfl

/-- The byte an unflagged result leaves in its own register. -/
theorem State.aluResult_next_reg {x : RegIdx} {b : Byte} (h : s.aluResult x b = .next t) : t.reg x = b := by
  obtain rfl := Host.Outcome.next.inj h
  rw [State.advance_reg, State.reg_setReg, if_pos rfl]

/-! ### the obligations -/

/-- Settles O33: the sum and its carry are the two numbers that a flagged result writes, the flag last. -/
theorem addSetsTheCarry : Obligations.AddSetsTheCarry := by
  intro x y s
  have h := s.aluFlagged_result x (s.reg x + s.reg y) (carryFlag (s.reg x) (s.reg y))
  rwa [← exec_addReg, BitVec.toNat_add, carryFlag_toNat] at h

/-- Settles O34: the difference and its no-borrow are the two numbers that a flagged result writes, the flag last. -/
theorem subSetsNoBorrow : Obligations.SubSetsNoBorrow := by
  intro x y s
  have h := s.aluFlagged_result x (s.reg x - s.reg y) (noBorrowFlag (s.reg x) (s.reg y))
  rwa [← exec_subReg, byte_sub_toNat, noBorrowFlag_toNat] at h

/-- Settles O38: the byte written is the turn's byte under the mask, and a mask leaves nothing outside itself. -/
theorem rndMasksTheHostsByte : Obligations.RndMasksTheHostsByte := by
  refine fun x nn s => ⟨?_, fun t h => ?_⟩
  · have h := s.aluResult_result x (s.turn.rnd &&& nn)
    rwa [← exec_rnd, BitVec.toNat_and] at h
  · rw [exec_rnd] at h
    rw [State.aluResult_next_reg h, BitVec.and_assoc, BitVec.and_not_self]
    exact BitVec.and_zero

/-- Settles O32: each answer is an unflagged result, and the bitwise operations on bytes are those on numbers. -/
theorem loadAndLogicWriteVx : Obligations.LoadAndLogicWriteVx := by
  intro x y s
  rw [exec_ldReg, exec_orReg, exec_andReg, exec_xorReg, ← BitVec.toNat_or, ← BitVec.toNat_and, ← BitVec.toNat_xor]
  exact ⟨s.aluResult_result x _, s.aluResult_result x _, s.aluResult_result x _, s.aluResult_result x _⟩

end Sys2Proof.Machine
end

section
/-! `CLS`: the display it leaves, its frame, and what the output interface presents (42_display.md, R181, R242). -/

namespace Sys2Proof.Machine

variable {s t : State} {ps qs : List Part}

/-! ### frames that write the display -/

/-- A frame that lists more parts claims less. -/
theorem OnlyChanges.mono (h : OnlyChanges ps s t) (hsub : ps ⊆ qs) : OnlyChanges qs s t :=
  fun p hp => h p (mt (@hsub p) hp)

theorem OnlyChanges.setDisp (h : OnlyChanges ps s t) (d : Display) : OnlyChanges (.disp :: ps) s (t.setDisp d) := by
  refine h.cons fun p hne hp => ?_
  cases p with
  | disp => exact absurd rfl hne
  | _ => exact hp

/-! ### what `CLS` answers and leaves -/

theorem exec_cls (s : State) : exec .cls s = .next (s.setDisp (blankDisplay s.cfg)).advance := rfl

theorem exec_cls_frame (h : exec .cls s = .next t) : OnlyChanges [.disp, .pc] s t := by
  obtain rfl := Host.Outcome.next.inj h
  have hframe := ((OnlyChanges.refl s).setDisp (blankDisplay s.cfg)).setPc (s.pc + 2)
  exact hframe.mono (List.Perm.swap Part.disp Part.pc []).subset

/-- The display left depends on the parameters alone. -/
theorem exec_cls_disp (h : exec .cls s = .next t) : t.disp = blankDisplay s.cfg := by
  obtain rfl := Host.Outcome.next.inj h
  rw [State.advance_disp, State.setDisp_disp]

/-- A `CLS` that left no error latched presents the bitmap it left (R242). -/
theorem outputOf_cls (h : t.err = none) : outputOf .cls t = some t.disp := by
  simp [outputOf, presentsDisplay, h]

/-- Settles O39: the display left is the blank one; the frame keeps the error latch, so the bitmap is presented, and the
parameters, so a second `CLS` leaves the same one. -/
theorem clsClearsEveryPixel : Obligations.ClsClearsEveryPixel := by
  intro s
  have hexec := exec_cls s
  have hdisp := exec_cls_disp hexec
  have hframe := exec_cls_frame hexec
  have herr := hframe .err (by decide)
  have hcfg := hframe .cfg (by decide)
  refine ⟨_, hexec, ?_, fun x y => ?_, State.advance_advances (s.setDisp _), hframe, fun h => ?_, fun u hu => ?_⟩
  · rw [hdisp]
    exact blankDisplay_wf s.cfg
  · rw [hdisp]
    exact blankDisplay_pixel s.cfg x y
  · exact outputOf_cls (herr.trans h)
  · rw [exec_cls_disp hu, hdisp, hcfg]

end Sys2Proof.Machine
end

section
/-! The timer instructions: the read of DT and the writes of DT and ST (43_keypad_timers.md, R193, R195, R196). -/

namespace Sys2Proof.Machine

variable {s t : State} {ps : List Part}

/-! ### frames that write a timer -/

theorem OnlyChanges.setDt (h : OnlyChanges ps s t) (b : Byte) : OnlyChanges (.dt :: ps) s (t.setDt b) := by
  refine h.cons fun p hne hp => ?_
  cases p with
  | dt => exact absurd rfl hne
  | _ => exact hp

theorem OnlyChanges.setSt (h : OnlyChanges ps s t) (b : Byte) : OnlyChanges (.st :: ps) s (t.setSt b) := by
  refine h.cons fun p hne hp => ?_
  cases p with
  | st => exact absurd rfl hne
  | _ => exact hp

/-- The advance of PC, listed after the one part written before it. -/
theorem OnlyChanges.advance_of_single {q : Part} (h : OnlyChanges [q] s t) : OnlyChanges [q, .pc] s t.advance :=
  (h.setPc (t.pc + 2)).mono (List.Perm.swap q Part.pc []).subset

/-! ### what the three instructions answer -/

theorem exec_ldVxDt (x : RegIdx) (s : State) : exec (.ldVxDt x) s = s.aluResult x s.dt := rfl

theorem exec_ldDtVx (x : RegIdx) (s : State) : exec (.ldDtVx x) s = .next (s.setDt (s.reg x)).advance := rfl

theorem exec_ldStVx (x : RegIdx) (s : State) : exec (.ldStVx x) s = .next (s.setSt (s.reg x)).advance := rfl

/-- Settles O44: the read is an unflagged result, as of the ALU; each write is one timer's update and the advance. -/
theorem timerInstructionsMoveOneByte : Obligations.TimerInstructionsMoveOneByte := by
  intro x s
  refine ⟨?read, ?delay, ?sound⟩
  case read =>
    rw [exec_ldVxDt]
    exact s.aluResult_result x s.dt
  case delay =>
    have hframe := ((OnlyChanges.refl s).setDt (s.reg x)).advance_of_single
    exact ⟨_, exec_ldDtVx x s, s.setDt_dt (s.reg x), State.advance_advances (s.setDt _), hframe⟩
  case sound =>
    have hframe := ((OnlyChanges.refl s).setSt (s.reg x)).advance_of_single
    exact ⟨_, exec_ldStVx x s, s.setSt_st (s.reg x), State.advance_advances (s.setSt _), hframe⟩

end Sys2Proof.Machine
end

section
/-! The BCD converter: double-dabble doubles a number held partly in decimal (44_memory_index.md, R204). -/

namespace Sys2Proof.Machine

variable {t : BitVec 24} {lo d h e o b n w : Nat}

/-! ### the defining property -/

theorem bcdDigits_map_toNat (v : Byte) :
    (bcdDigits v).map BitVec.toNat = [v.toNat / 100, v.toNat / 10 % 10, v.toNat % 10] := by
  have hv : v.toNat < 256 := v.isLt
  have hhundreds : v.toNat / 100 % 2 ^ 8 = v.toNat / 100 := Nat.mod_eq_of_lt (by omega)
  have htens : v.toNat / 10 % 10 % 2 ^ 8 = v.toNat / 10 % 10 := Nat.mod_eq_of_lt (by omega)
  have hones : v.toNat % 10 % 2 ^ 8 = v.toNat % 10 := Nat.mod_eq_of_lt (by omega)
  simp only [bcdDigits, List.map_cons, List.map_nil, BitVec.toNat_ofNat, hhundreds, htens, hones]

@[simp] theorem bcdDigits_length (v : Byte) : (bcdDigits v).length = 3 := rfl

/-! ### one field, one iteration -/

/-- What the correction makes of a digit field. -/
def correctedDigit (d : Nat) : Nat := if 4 < d then d + 3 else d

/-- The idea of double-dabble: a corrected digit, doubled in binary, is the doubled digit in decimal, its decimal carry
standing where the next field begins. -/
theorem two_mul_correctedDigit (hd : d ≤ 9) : 2 * correctedDigit d = 16 * (d / 5) + 2 * d % 10 := by
  unfold correctedDigit
  split <;> omega

theorem correctedDigit_le (hd : d ≤ 9) : correctedDigit d ≤ 12 := by
  unfold correctedDigit
  split <;> omega

/-- The correction touches its own field alone, so the three fields of one iteration are independent. `place` is the
field's place value. -/
theorem dabbleField_toNat {place : Nat} (hplace : 2 ^ lo = place) (above below : Nat)
    (ht : t.toNat = (above * 16 + d) * place + below) (hb : below < place) (hd : d ≤ 9)
    (hfit : (above * 16 + 16) * place ≤ 16777216) :
    (dabbleField lo t).toNat = (above * 16 + correctedDigit d) * place + below := by
  have hfield : (t.extractLsb' lo 4).toNat = d := by
    have hshift : ((above * 16 + d) * place + below) / place = above * 16 + d := by
      rw [Nat.mul_comm, Nat.mul_add_div (by omega), Nat.div_eq_of_lt hb, Nat.add_zero]
    rw [BitVec.extractLsb'_toNat, Nat.shiftRight_eq_div_pow, hplace, ht, hshift]
    omega
  unfold dabbleField correctedDigit
  rw [hfield]
  split
  case isFalse => exact ht
  case isTrue =>
    have hthree : (BitVec.ofNat 24 3 <<< lo).toNat = 3 * place := by
      rw [BitVec.toNat_shiftLeft, Nat.shiftLeft_eq, hplace, show (BitVec.ofNat 24 3).toNat = 3 from rfl]
      exact Nat.mod_eq_of_lt (by norm_num; nlinarith)
    have hsum : (above * 16 + d) * place + below + 3 * place = (above * 16 + (d + 3)) * place + below := by ring
    rw [BitVec.toNat_add, hthree, ht, hsum]
    exact Nat.mod_eq_of_lt (by norm_num; nlinarith)

/-- The corrections of one iteration, on hundreds `h`, tens `e`, ones `o` and a binary rest `b`. -/
theorem dabbleFields_toNat (ht : t.toNat = ((h * 16 + e) * 16 + o) * 256 + b) (hh : h ≤ 9) (he : e ≤ 9) (ho : o ≤ 9)
    (hb : b < 256) : (dabbleField 8 (dabbleField 12 (dabbleField 16 t))).toNat =
      ((correctedDigit h * 16 + correctedDigit e) * 16 + correctedDigit o) * 256 + b := by
  have hh' := correctedDigit_le hh
  have he' := correctedDigit_le he
  have hlow : (e * 16 + o) * 256 + b < 65536 := by linarith
  have hlow' : o * 256 + b < 4096 := by linarith
  have hfit : (correctedDigit h * 16 + 16) * 4096 ≤ 16777216 := by linarith
  have hfit' : ((correctedDigit h * 16 + correctedDigit e) * 16 + 16) * 256 ≤ 16777216 := by linarith
  have hhundreds := dabbleField_toNat (lo := 16) (place := 65536) (by norm_num) 0 ((e * 16 + o) * 256 + b)
    (ht.trans (by ring)) hlow hh (by decide)
  have htens := dabbleField_toNat (lo := 12) (place := 4096) (by norm_num) (correctedDigit h) (o * 256 + b)
    (hhundreds.trans (by ring)) hlow' he hfit
  exact dabbleField_toNat (lo := 8) (place := 256) (by norm_num) _ _ (htens.trans (by ring)) hb ho hfit'

/-- One iteration: each of the four is doubled, its carry going to the one on its left. -/
theorem dabbleStep_toNat (ht : t.toNat = ((h * 16 + e) * 16 + o) * 256 + b) (hh : h ≤ 4) (he : e ≤ 9) (ho : o ≤ 9)
    (hb : b < 256) : (dabbleStep t).toNat =
      (((2 * h + e / 5) * 16 + (2 * e % 10 + o / 5)) * 16 + (2 * o % 10 + b / 128)) * 256 + 2 * (b % 128) := by
  have hh2 : 2 * correctedDigit h = 2 * h := by
    have := two_mul_correctedDigit (d := h) (by omega)
    omega
  have he2 := two_mul_correctedDigit he
  have ho2 := two_mul_correctedDigit ho
  rw [dabbleStep, BitVec.toNat_shiftLeft, Nat.shiftLeft_eq, dabbleFields_toNat ht (by omega) he ho hb]
  omega

/-- The scratch value that holds the number `w`: the multiple of 256 in it as three decimal digits, the rest in
binary. -/
def scratch (w : Nat) : Nat := ((w / 25600 * 16 + w / 2560 % 10) * 16 + w / 256 % 10) * 256 + w % 256

/-- While three digits suffice, one iteration doubles the number held. -/
theorem dabbleStep_scratch (hw : 2 * w < 256000) (ht : t.toNat = scratch w) :
    (dabbleStep t).toNat = scratch (2 * w) := by
  rw [dabbleStep_toNat ht (by omega) (by omega) (by omega) (by omega), scratch]
  omega

/-- While three digits suffice, `n` iterations multiply the number held by `2 ^ n`. -/
theorem dabble_scratch (hw : 2 ^ n * w < 256000) (ht : t.toNat = scratch w) :
    (dabble n t).toNat = scratch (2 ^ n * w) := by
  induction n generalizing w t with
  | zero => rw [dabble, ht, pow_zero, one_mul]
  | succ n ih =>
    have hone : 2 * w ≤ 2 ^ n * (2 * w) := Nat.le_mul_of_pos_left _ (by positivity)
    rw [pow_succ, mul_assoc] at hw ⊢
    exact ih hw (dabbleStep_scratch (by omega) ht)

/-- Eight iterations bring the whole byte into the digit fields. -/
theorem dabble_eight_toNat (v : Byte) : (dabble 8 (v.setWidth 24)).toNat =
    ((v.toNat / 100 * 16 + v.toNat / 10 % 10) * 16 + v.toNat % 10) * 256 := by
  have hv : v.toNat < 256 := v.isLt
  have hseed : (v.setWidth 24).toNat = scratch v.toNat := by
    rw [BitVec.toNat_setWidth, scratch]
    omega
  rw [dabble_scratch (by omega) hseed, scratch]
  omega

theorem doubleDabble_map_toNat (v : Byte) :
    (doubleDabble v).map BitVec.toNat = [v.toNat / 100, v.toNat / 10 % 10, v.toNat % 10] := by
  have hv : v.toNat < 256 := v.isLt
  have hh : v.toNat / 100 ≤ 2 := by omega
  have he : v.toNat / 10 % 10 ≤ 9 := by omega
  have ho : v.toNat % 10 ≤ 9 := by omega
  simp only [doubleDabble, List.map_cons, List.map_nil, BitVec.toNat_setWidth, BitVec.extractLsb'_toNat,
    Nat.shiftRight_eq_div_pow, dabble_eight_toNat, Nat.reducePow, List.cons.injEq, and_true]
  generalize v.toNat / 100 = h, v.toNat / 10 % 10 = e, v.toNat % 10 = o at hh he ho ⊢
  exact ⟨by omega, by omega, by omega⟩

/-- Settles O48: both converters give the same three numbers, and these are the decimal digits. -/
theorem doubleDabbleGivesTheDigits : Obligations.DoubleDabbleGivesTheDigits := by
  intro v
  have hv : v.toNat < 256 := v.isLt
  have hsame : doubleDabble v = bcdDigits v :=
    List.map_injective_iff.2 (fun _ _ => BitVec.eq_of_toNat_eq)
      ((doubleDabble_map_toNat v).trans (bcdDigits_map_toNat v).symm)
  exact ⟨hsame, _, _, _, bcdDigits_map_toNat v, by omega, by omega, by omega, by omega⟩

end Sys2Proof.Machine
end

section
/-! `LD B, Vx`, and how an instruction ends that stores a run of bytes at once (44_memory_index.md, R205). -/

namespace Sys2Proof.Machine

variable {s : State} {a : Nat} {bs : List Byte}

/-! ### a store that is the whole of an instruction -/

/-- A store that passes its checks, concluded: the stored bytes, every other byte as before, and the advance. -/
theorem State.conclude_memWrite_stores (i : Instr) (hm : Memory.wf s.cfg s.mem) (hn : 1 ≤ bs.length)
    (h : a + bs.length ≤ s.cfg.memSize) (hl : s.cfg.loadBase ≤ a) :
    ∃ t, s.conclude i ((s.memWrite a bs).map State.advance) = .next t ∧
      (∀ k, k < bs.length → t.byteAt (a + k) = bs.getD k 0) ∧ SameOutside a bs.length s t ∧ Advances s t ∧
      OnlyChanges [.mem, .pc] s t := by
  obtain ⟨t, hstore, hbytes, hout, hframe⟩ := State.memWrite_stores hm hn h hl
  have hpc : t.pc = s.pc := hframe .pc (by decide)
  have hadv : Advances s t.advance := by
    rw [Advances, ← hpc]
    exact t.advance_advances
  rw [hstore]
  exact ⟨t.advance, rfl, hbytes, hout, hadv, hframe.advance_of_single⟩

/-- The range check comes first: it raises below LOAD_BASE too (R68). -/
theorem State.conclude_memWrite_outOfRange (i : Instr) (h : s.cfg.memSize < a + bs.length) :
    RaisesIn s (s.conclude i ((s.memWrite a bs).map State.advance)) i .memoryRange (max a s.cfg.memSize) := by
  rw [State.memWrite_outOfRange h]
  exact s.conclude_raises i _

theorem State.conclude_memWrite_reserved (i : Instr) (hn : 1 ≤ bs.length) (h : a + bs.length ≤ s.cfg.memSize)
    (hl : a < s.cfg.loadBase) :
    RaisesIn s (s.conclude i ((s.memWrite a bs).map State.advance)) i .reservedWrite a := by
  rw [State.memWrite_reserved hn h hl]
  exact s.conclude_raises i _

/-! ### `LD B, Vx` -/

theorem exec_ldB (x : RegIdx) (s : State) : exec (.ldB x) s =
    s.conclude (.ldB x) ((s.memWrite s.i.toNat (bcdDigits (s.reg x))).map State.advance) := rfl

/-- Settles O49: three bytes stored at I, each a digit as a number; else the first check of `MemWrite` that fails. -/
theorem bcdStoreWritesThreeDigits : Obligations.BcdStoreWritesThreeDigits := by
  intro x s
  rw [exec_ldB]
  have hlen := bcdDigits_length (s.reg x)
  refine ⟨fun hinv hbase hroom => ?stores, fun hrange => ?outOfRange, fun hroom hbelow => ?reserved⟩
  case stores =>
    obtain ⟨-, -, hwf, -, -⟩ := hinv
    obtain ⟨t, hnext, hbytes, hout, hadv, hframe⟩ :=
      State.conclude_memWrite_stores (.ldB x) hwf (bs := bcdDigits (s.reg x)) (by omega) (by omega) hbase
    have hdigit (k : Nat) (hk : k < 3) : (t.byteAt (s.i.toNat + k)).toNat =
        [(s.reg x).toNat / 100, (s.reg x).toNat / 10 % 10, (s.reg x).toNat % 10].getD k 0 := by
      rw [hbytes k hk, ← bcdDigits_map_toNat]
      exact (List.getD_map (bcdDigits (s.reg x)) 0 BitVec.toNat).symm
    exact ⟨t, hnext, hdigit 0 (by decide), hdigit 1 (by decide), hdigit 2 (by decide), hout, hadv, hframe⟩
  case outOfRange => exact State.conclude_memWrite_outOfRange (.ldB x) (by omega)
  case reserved => exact State.conclude_memWrite_reserved (.ldB x) (by omega) (by omega) hbelow

end Sys2Proof.Machine
end

section
/-! The decoder and the encoder are inverse to each other, and the words with no row (30_encoding.md sections 4, 5). -/

namespace Sys2Proof

variable {w : Word} {i : Instr}

/-! ### a word is its fields packed again (R94, R95) -/

theorem packNNN_fieldsOf (w : Word) : packNNN (fieldsOf w).cls (fieldsOf w).nnn = w :=
  BitVec.eq_of_toNat_eq (by
    rw [packNNN_toNat, fieldsOf_cls_toNat_eq_div, fieldsOf_nnn_toNat]
    omega)

theorem packXNN_fieldsOf (w : Word) : packXNN (fieldsOf w).cls (fieldsOf w).x (fieldsOf w).nn = w :=
  BitVec.eq_of_toNat_eq (by
    rw [packXNN_toNat, fieldsOf_cls_toNat_eq_div, fieldsOf_x_toNat, fieldsOf_nn_toNat]
    omega)

theorem packXYN_fieldsOf (w : Word) : packXYN (fieldsOf w).cls (fieldsOf w).x (fieldsOf w).y (fieldsOf w).n = w :=
  BitVec.eq_of_toNat_eq (by
    rw [packXYN_toNat, fieldsOf_cls_toNat_eq_div, fieldsOf_x_toNat, fieldsOf_y_toNat, fieldsOf_n_toNat]
    omega)

/-! ### decoding an encoded instruction -/

/-- The format lemmas give back the fields that the encoder packed, and the dispatch on the class, N or NN that the
row fixes answers the instruction; `SYS` is the one row that shares its class with fixed words. -/
theorem decodeWord_encode (h : i.WellFormed) : decodeWord (encode i) = .ok i := by
  cases i with
  | sys nnn => simp [decodeWord, encode, selectInstr, selectClass0, h.1, h.2]
  | cls | ret => rfl
  | ldReg | orReg | andReg | xorReg | addReg | subReg | shr | subn | shl =>
    simp [decodeWord, encode, selectInstr, selectClass8]
  | skp | sknp => simp [decodeWord, encode, selectInstr, selectClassE]
  | ldVxDt | ldVxK | ldDtVx | ldStVx | addI | ldF | ldB | storeBlock | loadBlock =>
    simp [decodeWord, encode, selectInstr, selectClassF]
  | _ => simp [decodeWord, encode, selectInstr]

/-- Settles O1: case by case over the rows, by the fields of each format. -/
theorem decodeInvertsEncode : Obligations.DecodeInvertsEncode := fun _ h => decodeWord_encode h

/-! ### encoding a decoded word -/

/-! Each sub-table keeps the fields its format has; its class and what it dispatched on are the constants of the row. -/

theorem encode_selectClass0 (f : Fields) :
    encode (selectClass0 f) = packNNN 0x0#4 f.nnn ∧ (selectClass0 f).WellFormed := by
  unfold selectClass0
  split
  case isTrue hE0 => exact ⟨by rw [hE0]; rfl, trivial⟩
  case isFalse hE0 =>
    split
    case isTrue hEE => exact ⟨by rw [hEE]; rfl, trivial⟩
    case isFalse hEE => exact ⟨rfl, hE0, hEE⟩

theorem encode_of_selectClass8 {f : Fields} (h : selectClass8 f = .ok i) :
    encode i = packXYN 0x8#4 f.x f.y f.n ∧ i.WellFormed := by
  unfold selectClass8 at h
  split at h
  case h_10 => cases h
  all_goals next hn => cases h; rw [hn]; exact ⟨rfl, trivial⟩

theorem encode_of_selectClassE {f : Fields} (h : selectClassE f = .ok i) :
    encode i = packXNN 0xE#4 f.x f.nn ∧ i.WellFormed := by
  unfold selectClassE at h
  split at h
  case h_3 => cases h
  all_goals next hnn => cases h; rw [hnn]; exact ⟨rfl, trivial⟩

theorem encode_of_selectClassF {f : Fields} (h : selectClassF f = .ok i) :
    encode i = packXNN 0xF#4 f.x f.nn ∧ i.WellFormed := by
  unfold selectClassF at h
  split at h
  case h_10 => cases h
  all_goals next hnn => cases h; rw [hnn]; exact ⟨rfl, trivial⟩

/-- The dispatch reaches class F by being no other class. -/
theorem cls_eq_F {c : BitVec 4} (h : c ∉ [0x0#4, 0x1#4, 0x2#4, 0x3#4, 0x4#4, 0x5#4, 0x6#4, 0x7#4, 0x8#4, 0x9#4, 0xA#4,
    0xB#4, 0xC#4, 0xD#4, 0xE#4]) : c = 0xF#4 := by
  decide +revert

theorem encode_of_decodeWord (h : decodeWord w = .ok i) : encode i = w ∧ i.WellFormed := by
  have hNNN := packNNN_fieldsOf w
  have hXNN := packXNN_fieldsOf w
  have hXYN := packXYN_fieldsOf w
  unfold decodeWord selectInstr at h
  split at h
  case h_1 hcls =>
    cases h
    rw [hcls] at hNNN
    exact (encode_selectClass0 _).imp (·.trans hNNN) id
  case h_9 hcls =>
    rw [hcls] at hXYN
    exact (encode_of_selectClass8 h).imp (·.trans hXYN) id
  case h_15 hcls =>
    rw [hcls] at hXNN
    exact (encode_of_selectClassE h).imp (·.trans hXNN) id
  case h_16 =>
    have hcls : (fieldsOf w).cls = 0xF#4 := cls_eq_F (by
      simp only [List.mem_cons, List.not_mem_nil, or_false, not_or]
      and_intros <;> assumption)
    rw [hcls] at hXNN
    exact (encode_of_selectClassF h).imp (·.trans hXNN) id
  case h_2 hcls | h_3 hcls | h_11 hcls | h_12 hcls =>
    cases h
    rw [hcls] at hNNN
    exact ⟨hNNN, trivial⟩
  case h_4 hcls | h_5 hcls | h_7 hcls | h_8 hcls | h_13 hcls =>
    cases h
    rw [hcls] at hXNN
    exact ⟨hXNN, trivial⟩
  case h_6 hcls | h_10 hcls | h_14 hcls =>
    cases h
    rw [hcls] at hXYN
    exact ⟨hXYN, trivial⟩

/-- Settles O2: the word is its fields packed again, and the instruction keeps every field that its row does not fix. -/
theorem encodeInvertsDecode : Obligations.EncodeInvertsDecode := fun _ _ h => encode_of_decodeWord h

/-! ### rows -/

theorem selectsOwnRow : ∀ i : Instr, Laws.SelectsOwnRow.Statement i
  | .sys nnn => Laws.SelectsOwnRow.sys nnn
  | .cls => Laws.SelectsOwnRow.cls
  | .ret => Laws.SelectsOwnRow.ret
  | .jp nnn => Laws.SelectsOwnRow.jp nnn
  | .call nnn => Laws.SelectsOwnRow.call nnn
  | .seByte x nn => Laws.SelectsOwnRow.seByte x nn
  | .sneByte x nn => Laws.SelectsOwnRow.sneByte x nn
  | .seReg x y n => Laws.SelectsOwnRow.seReg x y n
  | .ldByte x nn => Laws.SelectsOwnRow.ldByte x nn
  | .addByte x nn => Laws.SelectsOwnRow.addByte x nn
  | .ldReg x y => Laws.SelectsOwnRow.ldReg x y
  | .orReg x y => Laws.SelectsOwnRow.orReg x y
  | .andReg x y => Laws.SelectsOwnRow.andReg x y
  | .xorReg x y => Laws.SelectsOwnRow.xorReg x y
  | .addReg x y => Laws.SelectsOwnRow.addReg x y
  | .subReg x y => Laws.SelectsOwnRow.subReg x y
  | .shr x y => Laws.SelectsOwnRow.shr x y
  | .subn x y => Laws.SelectsOwnRow.subn x y
  | .shl x y => Laws.SelectsOwnRow.shl x y
  | .sneReg x y n => Laws.SelectsOwnRow.sneReg x y n
  | .ldI nnn => Laws.SelectsOwnRow.ldI nnn
  | .jpV0 nnn => Laws.SelectsOwnRow.jpV0 nnn
  | .rnd x nn => Laws.SelectsOwnRow.rnd x nn
  | .drw x y n => Laws.SelectsOwnRow.drw x y n
  | .skp x => Laws.SelectsOwnRow.skp x
  | .sknp x => Laws.SelectsOwnRow.sknp x
  | .ldVxDt x => Laws.SelectsOwnRow.ldVxDt x
  | .ldVxK x => Laws.SelectsOwnRow.ldVxK x
  | .ldDtVx x => Laws.SelectsOwnRow.ldDtVx x
  | .ldStVx x => Laws.SelectsOwnRow.ldStVx x
  | .addI x => Laws.SelectsOwnRow.addI x
  | .ldF x => Laws.SelectsOwnRow.ldF x
  | .ldB x => Laws.SelectsOwnRow.ldB x
  | .storeBlock x => Laws.SelectsOwnRow.storeBlock x
  | .loadBlock x => Laws.SelectsOwnRow.loadBlock x

/-- Settles O4: the word is the instruction's own, which selects the instruction's row. -/
theorem decodedWordMatchesItsRow : Obligations.DecodedWordMatchesItsRow := by
  intro w i h
  obtain ⟨rfl, -⟩ := encode_of_decodeWord h
  exact selectsOwnRow i

/-- Settles O6: nine words, decoded. -/
theorem listedWordsDecode : Obligations.ListedWordsDecode := by
  unfold Obligations.ListedWordsDecode
  decide

/-! ### words with no row (R106) -/

theorem n_without_row {n : Nibble} (h : n ∉ [0x0#4, 0x1#4, 0x2#4, 0x3#4, 0x4#4, 0x5#4, 0x6#4, 0x7#4, 0xE#4]) :
    n ∈ [0x8#4, 0x9#4, 0xA#4, 0xB#4, 0xC#4, 0xD#4, 0xF#4] := by
  decide +revert

theorem selectClass8_error_iff (f : Fields) : (∃ r, selectClass8 f = .error r) ↔
    f.n ∈ [0x8#4, 0x9#4, 0xA#4, 0xB#4, 0xC#4, 0xD#4, 0xF#4] := by
  unfold selectClass8
  split
  case h_10 =>
    have hn : f.n ∉ [0x0#4, 0x1#4, 0x2#4, 0x3#4, 0x4#4, 0x5#4, 0x6#4, 0x7#4, 0xE#4] := by
      simp only [List.mem_cons, List.not_mem_nil, or_false, not_or]
      and_intros <;> assumption
    exact iff_of_true ⟨_, rfl⟩ (n_without_row hn)
  all_goals next hn => simp [hn]

theorem selectClassE_error_iff (f : Fields) : (∃ r, selectClassE f = .error r) ↔ f.nn ∉ [0x9E#8, 0xA1#8] := by
  unfold selectClassE
  split
  case h_3 =>
    refine iff_of_true ⟨_, rfl⟩ ?_
    simp only [List.mem_cons, List.not_mem_nil, or_false, not_or]
    and_intros <;> assumption
  all_goals next hnn => simp [hnn]

theorem selectClassF_error_iff (f : Fields) : (∃ r, selectClassF f = .error r) ↔
    f.nn ∉ [0x07#8, 0x0A#8, 0x15#8, 0x18#8, 0x1E#8, 0x29#8, 0x33#8, 0x55#8, 0x65#8] := by
  unfold selectClassF
  split
  case h_10 =>
    refine iff_of_true ⟨_, rfl⟩ ?_
    simp only [List.mem_cons, List.not_mem_nil, or_false, not_or]
    and_intros <;> assumption
  all_goals next hnn => simp [hnn]

theorem decodeWord_error_iff (w : Word) : (∃ r, decodeWord w = .error r) ↔
    (fieldsOf w).cls = 0x8 ∧ (fieldsOf w).n ∈ [0x8#4, 0x9#4, 0xA#4, 0xB#4, 0xC#4, 0xD#4, 0xF#4] ∨
    (fieldsOf w).cls = 0xE ∧ (fieldsOf w).nn ∉ [0x9E#8, 0xA1#8] ∨
    (fieldsOf w).cls = 0xF ∧
      (fieldsOf w).nn ∉ [0x07#8, 0x0A#8, 0x15#8, 0x18#8, 0x1E#8, 0x29#8, 0x33#8, 0x55#8, 0x65#8] := by
  rw [← selectClass8_error_iff, ← selectClassE_error_iff, ← selectClassF_error_iff]
  unfold decodeWord selectInstr
  split
  case h_16 =>
    have hcls : (fieldsOf w).cls = 0xF#4 := cls_eq_F (by
      simp only [List.mem_cons, List.not_mem_nil, or_false, not_or]
      and_intros <;> assumption)
    simp [hcls]
  all_goals next hcls => simp [hcls]

end Sys2Proof
end

section
/-! What the other instructions answer, each in the words of the shared endings of a cycle (40_control_flow.md to
44_memory_index.md). -/

namespace Sys2Proof.Machine

/-! ### control transfer -/

theorem exec_sys (nnn : Addr12) (s : State) :
    exec (.sys nnn) s = s.conclude (.sys nnn) (.error ⟨.unimplementedOpcode, (encode (.sys nnn)).toNat⟩) := rfl

theorem exec_seByte (x : RegIdx) (nn : Byte) (s : State) :
    exec (.seByte x nn) s = .next (s.skipIf (s.reg x == nn)) := rfl

theorem exec_sneByte (x : RegIdx) (nn : Byte) (s : State) :
    exec (.sneByte x nn) s = .next (s.skipIf (s.reg x != nn)) := rfl

theorem exec_seReg (x y : RegIdx) (n : Nibble) (s : State) :
    exec (.seReg x y n) s = .next (s.skipIf (s.reg x == s.reg y)) := rfl

theorem exec_sneReg (x y : RegIdx) (n : Nibble) (s : State) :
    exec (.sneReg x y n) s = .next (s.skipIf (s.reg x != s.reg y)) := rfl

/-! ### the ALU -/

theorem exec_ldByte (x : RegIdx) (nn : Byte) (s : State) : exec (.ldByte x nn) s = s.aluResult x nn := rfl

theorem exec_addByte (x : RegIdx) (nn : Byte) (s : State) :
    exec (.addByte x nn) s = s.aluResult x (s.reg x + nn) := rfl

theorem exec_subn (x y : RegIdx) (s : State) :
    exec (.subn x y) s = s.aluFlagged x (s.reg y - s.reg x) (noBorrowFlag (s.reg y) (s.reg x)) := rfl

theorem exec_shr (x y : RegIdx) (s : State) :
    exec (.shr x y) s = s.aluFlagged x (s.shiftSource x y >>> 1) (droppedLow (s.shiftSource x y)) := rfl

theorem exec_shl (x y : RegIdx) (s : State) :
    exec (.shl x y) s = s.aluFlagged x (s.shiftSource x y <<< 1) (droppedHigh (s.shiftSource x y)) := rfl

/-! ### display, keypad -/

theorem exec_drw (x y : RegIdx) (n : Nibble) (s : State) : exec (.drw x y n) s =
    s.conclude (.drw x y n) ((s.memRead s.i.toNat n.toNat).map fun rows => s.drawSprite x y rows) := rfl

theorem exec_skp (x : RegIdx) (s : State) : exec (.skp x) s =
    s.conclude (.skp x) ((checkedIndex (s.reg x)).map fun k => s.skipIf (s.keyDown k)) := rfl

theorem exec_sknp (x : RegIdx) (s : State) : exec (.sknp x) s =
    s.conclude (.sknp x) ((checkedIndex (s.reg x)).map fun k => s.skipIf (!s.keyDown k)) := rfl

theorem exec_ldVxK (x : RegIdx) (s : State) : exec (.ldVxK x) s = .next (s.keyWait x s.turn.keyEvent) := rfl

/-! ### address register and memory -/

theorem exec_ldI (nnn : Addr12) (s : State) : exec (.ldI nnn) s = .next (s.setI (absAddr nnn)).advance := rfl

theorem exec_addI (x : RegIdx) (s : State) : exec (.addI x) s = .next (s.setI (s.i + zext16 (s.reg x))).advance := rfl

theorem exec_ldF (x : RegIdx) (s : State) : exec (.ldF x) s =
    s.conclude (.ldF x) ((checkedIndex (s.reg x)).map fun d => (s.setI (s.glyphAddr d)).advance) := rfl

theorem exec_storeBlock (x : RegIdx) (s : State) : exec (.storeBlock x) s =
    s.conclude (.storeBlock x) ((s.memWrite s.i.toNat (s.blockRegs x)).map State.advance) := rfl

theorem exec_loadBlock (x : RegIdx) (s : State) : exec (.loadBlock x) s =
    s.conclude (.loadBlock x) ((s.memRead s.i.toNat (x.toNat + 1)).map fun bs => (s.setRegs 0 bs).advance) := rfl

end Sys2Proof.Machine
end

section
/-! One step of each kind, and the errors a step can latch (30_encoding.md section 1, 60_exceptions.md). -/

namespace Sys2Proof.Machine

variable {s t : State} {i : Instr} {w : Word}

/-! ### what `step` answers, by the kind of turn -/

theorem step_of_tick (h : s.turn.tick = true) : step s = .next s.tick.endTurn := if_pos h

theorem step_of_coreTurn (h : s.turn.tick = false) : step s = s.coreTurn := if_neg (by simp [h])

theorem step_of_coreReady (h : s.CoreReady) : step s = endTurnOf s.coreCycle := by
  rw [step_of_coreTurn h.1, State.coreTurn, h.2]

theorem step_of_halted {e : ErrorRecord} (ht : s.turn.tick = false) (he : s.err = some e) :
    step s = .fault (.halted e) := by
  rw [step_of_coreTurn ht, State.coreTurn, he]

theorem step_of_fetch_error {e : Raised} (h : s.CoreReady) (hf : s.fetch = .error e) :
    step s = .next (s.raise none e).endTurn := by
  rw [step_of_coreReady h, State.coreCycle, hf]
  rfl

theorem step_of_decode_error {r : DecodeReject} (h : s.CoreReady) (hf : s.fetch = .ok w)
    (hd : decodeWord w = .error r) :
    step s = .next (s.raise (some w) ⟨.unimplementedOpcode, w.toNat⟩).endTurn := by
  rw [step_of_coreReady h, State.coreCycle, hf]
  show endTurnOf (s.executeWord w) = _
  rw [State.executeWord, hd]
  rfl

theorem step_of_decode_ok (h : s.CoreReady) (hf : s.fetch = .ok w) (hd : decodeWord w = .ok i) :
    step s = endTurnOf (exec i s) := by
  rw [step_of_coreReady h, State.coreCycle, hf]
  show endTurnOf (s.executeWord w) = _
  rw [State.executeWord, hd]

/-! ### frames of the end of a turn and of a tick -/

theorem OnlyChanges.endTurn {ps : List Part} (h : OnlyChanges ps s t) : OnlyChanges (.host :: ps) s t.endTurn := by
  refine h.cons fun p hne hp => ?_
  cases p with
  | host => exact absurd rfl hne
  | _ => exact hp

/-- The end of a turn, listed after the one part written in it. -/
theorem OnlyChanges.endTurn_of_single {q : Part} (h : OnlyChanges [q] s t) : OnlyChanges [q, .host] s t.endTurn :=
  h.endTurn.mono (List.Perm.swap q Part.host []).subset

theorem State.raise_endTurn_frame (s : State) (o : Option Word) (e : Raised) :
    OnlyChanges [.err, .host] s (s.raise o e).endTurn := (s.raise_frame o e).endTurn_of_single

theorem State.tick_endTurn_frame (s : State) : OnlyChanges [.dt, .st, .host] s s.tick.endTurn := by
  have htick : OnlyChanges [.st, .dt] s s.tick := ((OnlyChanges.refl s).setDt (countDown s.dt)).setSt (countDown s.st)
  exact htick.endTurn.mono (by decide)

theorem countDown_toNat (b : Byte) : (countDown b).toNat = b.toNat - 1 := by
  unfold countDown
  split
  case isTrue h => rw [h]; rfl
  case isFalse h =>
    refine byte_sub_one_toNat (Nat.one_le_iff_ne_zero.2 fun h0 => h ?_)
    exact BitVec.eq_of_toNat_eq h0

/-! ### no instruction is refused -/

theorem State.conclude_ne_refused (s : State) (i : Instr) (r : Except Raised State) (q : Refusal) :
    s.conclude i r ≠ .refused q := by
  cases r <;> simp

theorem State.guardSp_ne_refused {o : Host.Outcome State Fault Refusal} {q : Refusal} (h : o ≠ .refused q) :
    s.guardSp o ≠ .refused q := by
  unfold State.guardSp
  split
  · simp
  · exact h

theorem exec_ne_refused (i : Instr) (s : State) (q : Refusal) : exec i s ≠ .refused q := by
  cases i with
  | sys | drw | skp | sknp | ldF | ldB | storeBlock | loadBlock =>
    simp only [exec_sys, exec_drw, exec_skp, exec_sknp, exec_ldF, exec_ldB, exec_storeBlock, exec_loadBlock]
    exact s.conclude_ne_refused _ _ q
  | ret | call =>
    simp only [exec_ret, exec_call]
    exact State.guardSp_ne_refused (s.conclude_ne_refused _ _ q)
  | _ => exact nofun

/-! ### the obligations -/

/-- Settles O10: a tick and an effect leave the latch alone, so the step is an error entry: of the fetch, which has no
word, of a word with no row, or of an instruction, whose word `encode` gives back. -/
theorem errorEntryIsPrecise : Obligations.ErrorEntryIsPrecise := by
  intro s t e hclear h he
  obtain ⟨-, rfl⟩ | ⟨-, -, ⟨r, hfetch, rfl⟩ | ⟨w, r, hfetch, -, rfl⟩ | ⟨w, i, u, hfetch, hdec, hexec, rfl⟩⟩ :=
    step_next h
  case inl => exact absurd (he.symm.trans hclear) (by simp)
  case inr.inl =>
    cases he
    exact ⟨s.raise_endTurn_frame _ _, rfl, .inl ⟨rfl, r, hfetch⟩⟩
  case inr.inr.inl =>
    cases he
    exact ⟨s.raise_endTurn_frame _ _, rfl, .inr ⟨w, hfetch, rfl⟩⟩
  case inr.inr.inr =>
    obtain ⟨r, rfl⟩ | heff := exec_next hexec
    · cases he
      obtain ⟨rfl, -⟩ := encode_of_decodeWord hdec
      exact ⟨s.raise_endTurn_frame _ _, rfl, .inr ⟨_, hfetch, rfl⟩⟩
    · obtain ⟨-, -, -, herr⟩ := heff.keeps
      exact absurd (he.symm.trans (herr.trans hclear)) (by simp)

/-- Settles O5: the table's gaps class by class, and the step on a word in one. -/
theorem wordsWithoutARowRaise : Obligations.WordsWithoutARowRaise :=
  ⟨decodeWord_error_iff, fun s _ _ hready hfetch hdec =>
    ⟨_, step_of_decode_error hready hfetch hdec, rfl, s.raise_endTurn_frame _ _⟩⟩

/-- Settles O8: each clause is one error of `Fetch`, raised without a word. -/
theorem fetchErrorsLatch : Obligations.FetchErrorsLatch := fun s hready =>
  ⟨fun hodd => ⟨_, step_of_fetch_error hready (State.fetch_misaligned hodd), rfl, s.raise_endTurn_frame _ _⟩,
   fun halign hrange =>
    ⟨_, step_of_fetch_error hready (State.fetch_outOfRange halign hrange), rfl, s.raise_endTurn_frame _ _⟩⟩

/-- Settles O11: a tick counts both timers down and the turn ends. -/
theorem tickCountsBothTimersDown : Obligations.TickCountsBothTimersDown := fun s h =>
  ⟨_, step_of_tick h, countDown_toNat s.dt, countDown_toNat s.st, rfl, rfl, s.tick_endTurn_frame⟩

/-- Settles O9: the core's turn faults, and a tick leaves the latch alone. -/
theorem haltedCoreStaysHalted : Obligations.HaltedCoreStaysHalted := fun s _ he =>
  ⟨fun ht => step_of_halted ht he, fun ht => ⟨_, step_of_tick ht, he, s.tick_endTurn_frame⟩⟩

/-- Settles O7: the fetch answers the word of the two bytes, and `step` ends the turn around the instruction. -/
theorem stepRunsTheDecodedInstruction : Obligations.StepRunsTheDecodedInstruction := by
  intro s i hready halign hrange _ hdec
  have hstep := step_of_decode_ok hready (State.fetch_inRange halign hrange) hdec
  refine ⟨fun t h => ?_, fun f h => ?_, exec_ne_refused i s⟩
  · rw [hstep, h]
    rfl
  · rw [hstep, h]
    rfl

/-- Settles O56: reset is the core's turn, the two bytes at its PC are 0, and they are the word of a `SYS`. -/
theorem resetWithoutAnImageRaisesAtOnce : Obligations.ResetWithoutAnImageRaisesAtOnce := by
  have hready : State.reset.CoreReady := ⟨rfl, rfl⟩
  have hfetch : State.reset.fetch = .ok 0x0000 := by decide
  have hdec : decodeWord 0x0000 = .ok (.sys 0) := by decide
  exact ⟨_, step_of_decode_ok hready hfetch hdec, rfl, State.reset.raise_endTurn_frame _ _⟩

end Sys2Proof.Machine
end

section
/-! Which part of the machine each effect writes, and what every step therefore keeps (10_state.md section 4,
20_memory.md sections 4 and 5). -/

namespace Sys2Proof.Machine

variable {s t : State} {i : Instr} {a : Nat}

/-- Everything a step can leave, its turn ended: a tick, an error entry, or the effect of the instruction it ran. -/
theorem step_next_effect (h : step s = .next t) :
    (s.turn.tick = true ∧ t = s.tick.endTurn) ∨ (∃ o e, t = (s.raise o e).endTurn) ∨
    ∃ i u, s.Runs i ∧ Effect s i u ∧ t = u.endTurn := by
  obtain ⟨ht, rfl⟩ | ⟨-, -, ⟨e, -, rfl⟩ | ⟨w, r, -, -, rfl⟩ | ⟨w, i, u, hfetch, hdec, hexec, rfl⟩⟩ :=
    step_next h
  case inl => exact .inl ⟨ht, rfl⟩
  case inr.inl => exact .inr (.inl ⟨none, e, rfl⟩)
  case inr.inr.inl => exact .inr (.inl ⟨some w, _, rfl⟩)
  case inr.inr.inr =>
    obtain ⟨e, rfl⟩ | heff := exec_next hexec
    · exact .inr (.inl ⟨_, e, rfl⟩)
    · exact .inr (.inr ⟨i, u, ⟨w, hfetch, hdec⟩, heff, rfl⟩)

/-! ### one part after another: which effects write it -/

/-- Only the two stores write memory, a run of bytes from I that passed both checks (R68). -/
theorem Effect.mem_eq_or_store (h : Effect s i t) : t.mem = s.mem ∨
    ∃ bs, s.cfg.loadBase ≤ s.i.toNat ∧ s.i.toNat + bs.length ≤ s.cfg.memSize ∧
      t.mem = Memory.writeList s.cfg s.mem s.i.toNat bs ∧
      ((∃ x, i = .ldB x ∧ bs.length = 3) ∨ ∃ x, i = .storeBlock x ∧ bs.length = x.toNat + 1) := by
  cases h with
  | ldB x u hu =>
    obtain ⟨hbase, hroom, rfl⟩ := State.memWrite_ok (by simp) hu
    exact .inr ⟨_, hbase, hroom, rfl, .inl ⟨x, rfl, bcdDigits_length _⟩⟩
  | storeBlock x u hu =>
    obtain ⟨hbase, hroom, rfl⟩ := State.memWrite_ok (by simp) hu
    exact .inr ⟨_, hbase, hroom, rfl, .inr ⟨x, rfl, s.blockRegs_length x⟩⟩
  | loadBlock x bs _ => exact .inl (s.setRegs_mem 0 bs)
  | _ => exact .inl rfl

theorem Effect.i_eq_or_write (h : Effect s i t) :
    t.i = s.i ∨ (∃ nnn, i = .ldI nnn) ∨ (∃ x, i = .addI x) ∨ ∃ x, i = .ldF x := by
  cases h with
  | ldI nnn => exact .inr (.inl ⟨nnn, rfl⟩)
  | addI x => exact .inr (.inr (.inl ⟨x, rfl⟩))
  | ldF x d _ => exact .inr (.inr (.inr ⟨x, rfl⟩))
  | ldB x u hu | storeBlock x u hu =>
    obtain ⟨-, -, rfl⟩ := State.memWrite_ok (by simp) hu
    exact .inl rfl
  | loadBlock x bs _ => exact .inl (s.setRegs_i 0 bs)
  | _ => exact .inl rfl

/-- Each timer has one instruction that writes it, and it writes no other timer. -/
theorem Effect.timers_eq_or_write (h : Effect s i t) : (t.dt = s.dt ∧ t.st = s.st) ∨
    (∃ x, i = .ldDtVx x ∧ t.dt = s.reg x ∧ t.st = s.st) ∨ ∃ x, i = .ldStVx x ∧ t.dt = s.dt ∧ t.st = s.reg x := by
  cases h with
  | ldDtVx x => exact .inr (.inl ⟨x, rfl, rfl, rfl⟩)
  | ldStVx x => exact .inr (.inr ⟨x, rfl, rfl, rfl⟩)
  | ldB x u hu | storeBlock x u hu =>
    obtain ⟨-, -, rfl⟩ := State.memWrite_ok (by simp) hu
    exact .inl ⟨rfl, rfl⟩
  | loadBlock x bs _ => exact .inl ⟨s.setRegs_dt 0 bs, s.setRegs_st 0 bs⟩
  | _ => exact .inl ⟨rfl, rfl⟩

/-- Only `CALL` and `RET` write SP and the stack, `CALL` with room and `RET` with a live entry (R32). -/
theorem Effect.stack_eq_or_call_or_ret (h : Effect s i t) :
    (t.sp = s.sp ∧ t.stack = s.stack) ∨
    (∃ nnn, i = .call nnn ∧ ∃ hroom : s.sp.toNat < 16,
      t.sp = s.sp + 1 ∧ t.stack = s.stack.set s.sp.toNat (s.pc + 2) hroom) ∨
    (i = .ret ∧ 1 ≤ s.sp.toNat ∧ s.sp.toNat ≤ 16 ∧ t.sp = s.sp - 1 ∧ t.stack = s.stack) := by
  cases h with
  | call nnn hroom => exact .inr (.inl ⟨nnn, rfl, hroom, rfl, rfl⟩)
  | ret hne hle =>
    have hpos : 1 ≤ s.sp.toNat := Nat.one_le_iff_ne_zero.2 fun h0 => hne (BitVec.eq_of_toNat_eq h0)
    exact .inr (.inr ⟨rfl, hpos, hle, rfl, rfl⟩)
  | ldB x u hu | storeBlock x u hu =>
    obtain ⟨-, -, rfl⟩ := State.memWrite_ok (by simp) hu
    exact .inl ⟨rfl, rfl⟩
  | loadBlock x bs _ => exact .inl ⟨s.setRegs_sp 0 bs, s.setRegs_stack 0 bs⟩
  | _ => exact .inl ⟨rfl, rfl⟩

/-! ### memory -/

/-- A changed byte lies in the window of the store that was run, and not in the reserved region. -/
theorem Effect.byteAt_ne_window (h : Effect s i t) (hne : t.byteAt a ≠ s.byteAt a) :
    s.cfg.loadBase ≤ s.i.toNat ∧ s.i.toNat ≤ a ∧
      ((∃ x, i = .ldB x ∧ a < s.i.toNat + 3) ∨ ∃ x, i = .storeBlock x ∧ a ≤ s.i.toNat + x.toNat) := by
  obtain ⟨hcfg, -, -, -⟩ := h.keeps
  unfold State.byteAt at hne
  rw [hcfg] at hne
  obtain hmem | ⟨bs, hbase, -, hmem, hrun⟩ := h.mem_eq_or_store
  · exact absurd (by rw [hmem]) hne
  · have hwindow : ¬(a < s.i.toNat ∨ s.i.toNat + bs.length ≤ a) := fun hout =>
      hne (by rw [hmem, Memory.read_writeList_outside bs _ _ _ hout])
    refine ⟨hbase, by omega, ?_⟩
    obtain ⟨x, rfl, hlen⟩ | ⟨x, rfl, hlen⟩ := hrun
    · exact .inl ⟨x, rfl, by omega⟩
    · exact .inr ⟨x, rfl, by omega⟩

theorem step_byteAt_ne_window (h : step s = .next t) (hne : t.byteAt a ≠ s.byteAt a) :
    s.cfg.loadBase ≤ s.i.toNat ∧ s.i.toNat ≤ a ∧
      ((∃ x, s.Runs (.ldB x) ∧ a < s.i.toNat + 3) ∨ ∃ x, s.Runs (.storeBlock x) ∧ a ≤ s.i.toNat + x.toNat) := by
  obtain ⟨i, u, hruns, heff, hne⟩ := step_changes_by_effect (·.byteAt a) (fun u => u.tick_byteAt a)
    (fun u w e => u.raise_byteAt w e a) (fun u => u.endTurn_byteAt a) h hne
  obtain ⟨hbase, hlow, ⟨x, rfl, hhigh⟩ | ⟨x, rfl, hhigh⟩⟩ := heff.byteAt_ne_window hne
  · exact ⟨hbase, hlow, .inl ⟨x, hruns, hhigh⟩⟩
  · exact ⟨hbase, hlow, .inr ⟨x, hruns, hhigh⟩⟩

/-- Settles O14: a byte that changes is at I or above, and I is at LOAD_BASE or above. -/
theorem reservedRegionIsNeverWritten : Obligations.ReservedRegionIsNeverWritten := by
  intro s t a h hreserved
  by_contra hne
  obtain ⟨hbase, hlow, -⟩ := step_byteAt_ne_window h hne
  omega

/-- Settles O15: the window of the store that was run. -/
theorem onlyTwoInstructionsStore : Obligations.OnlyTwoInstructionsStore := by
  intro s t a h hne
  obtain ⟨-, hlow, ⟨x, hruns, hhigh⟩ | ⟨x, hruns, hhigh⟩⟩ := step_byteAt_ne_window h hne
  · exact .inl ⟨x, hruns, hlow, hhigh⟩
  · exact .inr ⟨x, hruns, hlow, hhigh⟩

/-! ### the invariant -/

theorem Effect.sp_le (h : Effect s i t) (hsp : s.sp.toNat ≤ 16) : t.sp.toNat ≤ 16 := by
  obtain ⟨hsame, -⟩ | ⟨-, -, hroom, hsucc, -⟩ | ⟨-, hpos, -, hpred, -⟩ := h.stack_eq_or_call_or_ret
  · rwa [hsame]
  · rw [hsucc, BitVec.toNat_add_of_lt (show s.sp.toNat + 1 < 256 by omega)]
    exact hroom
  · rw [hpred, byte_sub_one_toNat hpos]
    omega

theorem Effect.mem_wf (h : Effect s i t) (hwf : Memory.wf s.cfg s.mem) : Memory.wf s.cfg t.mem := by
  obtain hmem | ⟨bs, -, hroom, hmem, -⟩ := h.mem_eq_or_store
  · rwa [hmem]
  · rw [hmem]
    exact Memory.writeList_wf bs _ hwf hroom

theorem Effect.mem_above (h : Effect s i t) (habove : ∀ c ∈ s.mem, s.cfg.loadBase ≤ c.1) :
    ∀ c ∈ t.mem, s.cfg.loadBase ≤ c.1 := by
  intro c hc
  obtain hmem | ⟨bs, hbase, -, hmem, -⟩ := h.mem_eq_or_store
  · exact habove c (hmem ▸ hc)
  · rw [hmem] at hc
    obtain ⟨hlow, -⟩ | hold := Memory.writeList_addresses bs _ hc
    · exact hbase.trans hlow
    · exact habove c hold

theorem Effect.disp_wf (h : Effect s i t) (hwf : Display.wf s.cfg s.disp) : Display.wf s.cfg t.disp := by
  obtain hdisp | rfl | ⟨x, y, n, rfl⟩ := h.disp_eq_or_cls_or_drw
  · rwa [hdisp]
  · cases h
    exact blankDisplay_wf s.cfg
  · cases h
    exact blit_wf hwf _ _ _

theorem Effect.inv (h : Effect s i t) (hinv : s.Inv) : t.Inv := by
  obtain ⟨hparams, hsp, hmem, habove, hdisp⟩ := hinv
  obtain ⟨hcfg, -, -, -⟩ := h.keeps
  unfold State.Inv
  rw [hcfg]
  exact ⟨hparams, h.sp_le hsp, h.mem_wf hmem, h.mem_above habove, h.disp_wf hdisp⟩

/-- Every instruction that answers a next state keeps the invariant, an error entry trivially. -/
theorem exec_keeps_inv (hinv : s.Inv) (h : exec i s = .next t) : t.Inv := by
  obtain ⟨e, rfl⟩ | heff := exec_next h
  · exact hinv
  · exact heff.inv hinv

/-- Settles O12: the invariant speaks of no part that a tick, an error entry or the end of a turn writes, and every
effect keeps it part by part. -/
theorem stepKeepsTheInvariant : Obligations.StepKeepsTheInvariant := by
  intro s t hinv h
  obtain ⟨-, rfl⟩ | ⟨o, e, rfl⟩ | ⟨i, u, -, heff, rfl⟩ := step_next_effect h
  · exact ⟨hinv, rfl⟩
  · exact ⟨hinv, rfl⟩
  · obtain ⟨hcfg, -, -, -⟩ := heff.keeps
    exact ⟨heff.inv hinv, hcfg⟩

theorem State.resetWith_inv {p : Params} (h : p.WellFormed) : (State.resetWith p).Inv :=
  ⟨h, by simp [State.resetWith], ⟨List.Pairwise.nil, nofun⟩, nofun, blankDisplay_wf p⟩

/-- Settles O13: nothing is listed in memory after reset, and the display is blank. -/
theorem resetMeetsTheInvariant : Obligations.ResetMeetsTheInvariant :=
  ⟨fun _ h => State.resetWith_inv h, State.resetWith_inv (by decide)⟩

/-! ### I, the timers, the stack -/

/-- Settles O16: a changed I is changed by the effect of the instruction run, and three effects write it. -/
theorem onlyThreeInstructionsWriteI : Obligations.OnlyThreeInstructionsWriteI := by
  intro s t h hne
  obtain ⟨i, u, hruns, heff, hne⟩ := step_changes_by_effect (·.i) State.tick_i State.raise_i State.endTurn_i h hne
  obtain hi | ⟨nnn, rfl⟩ | ⟨x, rfl⟩ | ⟨x, rfl⟩ := heff.i_eq_or_write
  · exact absurd hi hne
  · exact .inl ⟨nnn, hruns⟩
  · exact .inr (.inl ⟨x, hruns⟩)
  · exact .inr (.inr ⟨x, hruns⟩)

/-- Settles O18: an error entry leaves both timers, and one effect writes each. -/
theorem timersChangeByTickOrWrite : Obligations.TimersChangeByTickOrWrite := by
  intro s t h
  obtain ⟨ht, rfl⟩ | ⟨o, e, rfl⟩ | ⟨i, u, hruns, heff, rfl⟩ := step_next_effect h
  · exact ⟨fun _ => .inl ht, fun _ => .inl ht⟩
  · exact ⟨absurd rfl, absurd rfl⟩
  · obtain ⟨hdt, hst⟩ | ⟨x, rfl, hdt, hst⟩ | ⟨x, rfl, hdt, hst⟩ := heff.timers_eq_or_write
    · exact ⟨absurd hdt, absurd hst⟩
    · exact ⟨fun _ => .inr ⟨x, hruns, hdt⟩, absurd hst⟩
    · exact ⟨absurd hdt, fun _ => .inr ⟨x, hruns, hst⟩⟩

/-- Settles O19: a tick and an error entry leave the stack, `CALL` writes the one entry at SP and `RET` none. -/
theorem stackMovesByCallAndRet : Obligations.StackMovesByCallAndRet := by
  intro s t h
  obtain ⟨-, rfl⟩ | ⟨o, e, rfl⟩ | ⟨i, u, hruns, heff, rfl⟩ := step_next_effect h
  · exact ⟨absurd rfl, fun _ _ => absurd rfl⟩
  · exact ⟨absurd rfl, fun _ _ => absurd rfl⟩
  simp only [State.endTurn_sp, State.endTurn_stack]
  obtain ⟨hsp, hstack⟩ | ⟨nnn, rfl, hroom, hsp, hstack⟩ | ⟨rfl, -, -, hsp, hstack⟩ := heff.stack_eq_or_call_or_ret
  · simp only [hsp, hstack]
    exact ⟨absurd rfl, fun _ _ => absurd rfl⟩
  · refine ⟨fun _ => .inl ⟨nnn, hruns, hsp⟩, fun k hk hne => ⟨?_, nnn, hruns⟩⟩
    by_contra hk'
    exact hne (by simp only [hstack]; exact Vector.getElem_set_ne hroom hk (Ne.symm hk'))
  · simp only [hstack]
    exact ⟨fun _ => .inr ⟨hruns, hsp⟩, fun _ _ => absurd rfl⟩

/-! ### general registers -/

theorem State.setReg_reg_ne {x r : RegIdx} {b : Byte} (h : (s.setReg x b).reg r ≠ s.reg r) : r = x := by
  by_contra hr
  exact h (by rw [State.reg_setReg, if_neg hr])

theorem State.setRegFlag_reg_ne {x r : RegIdx} {b : Byte} {f : Bool} (h : (s.setRegFlag x b f).reg r ≠ s.reg r) :
    r = x ∨ r = vf := by
  by_contra hr
  obtain ⟨hx, hvf⟩ := not_or.1 hr
  exact h (by rw [State.reg_setRegFlag, if_neg hvf, if_neg hx])

/-- A sprite's collision goes to VF, and no other register is written (R182). -/
theorem State.drawSprite_reg (s : State) (x y : RegIdx) (rows : List Byte) (r : RegIdx) :
    (s.drawSprite x y rows).reg r =
      if r = vf then
        (if (blit s.cfg s.disp ((s.reg x).toNat % s.cfg.dispW) ((s.reg y).toNat % s.cfg.dispH) rows).2 then 0x01
          else 0x00)
      else s.reg r := State.reg_setFlag _ _ r

/-- A read that answers gives as many bytes as were asked for (R67). -/
theorem State.memRead_length {n : Nat} {bs : List Byte} (h : s.memRead a n = .ok bs) : bs.length = n := by
  unfold State.memRead at h
  split at h
  case isTrue h0 => cases h; exact h0.symm
  case isFalse =>
    split at h
    · cases h
    · cases h; exact Memory.readList_length _ _ _

theorem Effect.reg_ne_mayWriteReg {r : RegIdx} (h : Effect s i t) (hne : t.reg r ≠ s.reg r) : mayWriteReg i r := by
  cases h with
  | ldByte | addByte | ldReg | orReg | andReg | xorReg | rnd | ldVxDt | ldVxK => exact State.setReg_reg_ne hne
  | addReg | subReg | shr | subn | shl => exact State.setRegFlag_reg_ne hne
  | drw x y n rows _ =>
    by_contra hr
    exact hne ((s.drawSprite_reg x y rows r).trans (if_neg hr))
  | loadBlock x bs hbs =>
    have hx : x.toNat < 16 := x.isLt
    have hlen := State.memRead_length hbs
    by_contra hr
    have hr : ¬r.toNat ≤ x.toNat := hr
    exact hne ((State.reg_setRegs bs 0 s r (by omega)).trans (if_neg (by omega)))
  | ldB x u hu | storeBlock x u hu =>
    obtain ⟨-, -, rfl⟩ := State.memWrite_ok (by simp) hu
    exact absurd rfl hne
  | _ => exact absurd rfl hne

/-- Settles O20: an error entry writes no register, and each effect only those that `mayWriteReg` lists. -/
theorem onlyDestinationRegistersChange : Obligations.OnlyDestinationRegistersChange := by
  intro i s t r h hne
  obtain ⟨e, rfl⟩ | heff := exec_next h
  · exact absurd rfl hne
  · exact heff.reg_ne_mayWriteReg hne

end Sys2Proof.Machine
end

section
/-! The host's side of the state reaches no instruction but the four that sample it (00_scope.md section 4,
60_exceptions.md section 3). -/

namespace Sys2Proof.Machine

variable (script : List HostTurn) (turnNo : Nat)

/-- An outcome with another host side. -/
def withHostOf : Host.Outcome State Fault Refusal → Host.Outcome State Fault Refusal
  | .next t => .next (t.withHost script turnNo)
  | .fault f => .fault f
  | .refused r => .refused r

/-! ### the shared operations do not look at the host's side -/

theorem State.setRegs_withHost : ∀ (bs : List Byte) (k : Nat) (s : State),
    (s.withHost script turnNo).setRegs k bs = (s.setRegs k bs).withHost script turnNo
  | [], _, _ => rfl
  | b :: bs, k, s => State.setRegs_withHost bs (k + 1) (s.setReg (BitVec.ofNat 4 k) b)

theorem State.memWrite_withHost (s : State) (a : Nat) (bs : List Byte) :
    (s.withHost script turnNo).memWrite a bs = (s.memWrite a bs).map (·.withHost script turnNo) := by
  unfold State.memWrite
  show (if s.cfg.memSize ≤ _ then _ else if a < s.cfg.loadBase then _ else _) = _
  split
  · rfl
  · split <;> rfl

theorem State.push_withHost (s : State) (a : Word) :
    (s.withHost script turnNo).push a = (s.push a).map (·.withHost script turnNo) := by
  unfold State.push
  show (if h : s.sp.toNat < 16 then _ else _) = _
  split <;> rfl

theorem State.pop_withHost (s : State) :
    (s.withHost script turnNo).pop = s.pop.map fun r => (r.1.withHost script turnNo, r.2) := by
  unfold State.pop
  show (if s.sp = 0 then _ else _) = _
  split <;> rfl

/-- A cycle whose writes commute with the host's side ends with the same outcome on another host side. -/
theorem State.conclude_withHost (s : State) (i : Instr) (r : Except Raised State) :
    (s.withHost script turnNo).conclude i (r.map (·.withHost script turnNo)) =
      withHostOf script turnNo (s.conclude i r) := by
  cases r <;> rfl

theorem State.guardSp_withHost (s : State) (o : Host.Outcome State Fault Refusal) :
    (s.withHost script turnNo).guardSp (withHostOf script turnNo o) = withHostOf script turnNo (s.guardSp o) := by
  unfold State.guardSp
  show (if 16 < s.sp.toNat then _ else _) = _
  split <;> rfl

theorem except_map_map {α β γ : Type} (r : Except Raised α) (f : α → β) (g : β → γ) :
    (r.map f).map g = r.map fun a => g (f a) := by
  cases r <;> rfl

/-! ### the instructions -/

theorem exec_withHost {i : Instr} (h : samplesHost i = false) (s : State) :
    exec i (s.withHost script turnNo) = withHostOf script turnNo (exec i s) := by
  cases i with
  | rnd | skp | sknp | ldVxK => cases h
  | ret =>
    rw [exec_ret, exec_ret, State.pop_withHost, ← State.guardSp_withHost, ← State.conclude_withHost, except_map_map,
      except_map_map]
    rfl
  | call nnn =>
    rw [exec_call, exec_call, ← State.guardSp_withHost, ← State.conclude_withHost, except_map_map]
    show State.guardSp _ (State.conclude _ _ (((s.withHost script turnNo).push (s.pc + 2)).map _)) = _
    rw [State.push_withHost, except_map_map]
    rfl
  | drw x y n =>
    rw [exec_drw, exec_drw, ← State.conclude_withHost, except_map_map]
    rfl
  | ldF x =>
    rw [exec_ldF, exec_ldF, ← State.conclude_withHost, except_map_map]
    rfl
  | ldB x =>
    rw [exec_ldB, exec_ldB, ← State.conclude_withHost, except_map_map, State.memWrite_withHost, except_map_map]
    rfl
  | storeBlock x =>
    rw [exec_storeBlock, exec_storeBlock, ← State.conclude_withHost, except_map_map, State.memWrite_withHost,
      except_map_map]
    rfl
  | loadBlock x =>
    rw [exec_loadBlock, exec_loadBlock, ← State.conclude_withHost, except_map_map]
    simp only [State.setRegs_withHost]
    rfl
  | _ => rfl

/-- Settles O21: an instruction that samples no input gives, on another host side, its outcome with that host side. -/
theorem hostInputsReachOnlyFourInstructions : Obligations.HostInputsReachOnlyFourInstructions := by
  intro i s t script turnNo hsamples h
  rw [exec_withHost script turnNo hsamples, h]
  rfl

end Sys2Proof.Machine
end

section
/-! `SYS`, the skips, the way back from a call, and the stop of a stack pointer that is never produced
(40_control_flow.md). -/

namespace Sys2Proof.Machine

variable {s t u : State} {ps qs : List Part}

theorem encode_sys_toNat (nnn : Addr12) : (encode (.sys nnn)).toNat = nnn.toNat := by
  rw [encode, packNNN_toNat]
  simp

/-- Settles O22: the meaning is an error whatever the state, and class 0 puts nothing before NNN. -/
theorem sysAlwaysRaises : Obligations.SysAlwaysRaises := by
  refine fun nnn s => ⟨?_, encode_sys_toNat nnn⟩
  rw [exec_sys, encode_sys_toNat]
  exact s.conclude_raises _ _

theorem State.guardSp_gt {o : Host.Outcome State Fault Refusal} (h : 16 < s.sp.toNat) :
    s.guardSp o = .fault .stackPointerOutOfRange := if_pos h

/-- Settles O28: the guard of both instructions stops before either looks at the stack. -/
theorem unproducedStackPointerStops : Obligations.UnproducedStackPointerStops := by
  intro nnn s h
  rw [exec_call, exec_ret]
  exact ⟨State.guardSp_gt h, State.guardSp_gt h⟩

theorem Part.Same.trans {p : Part} (h : p.Same s t) (h' : p.Same t u) : p.Same s u := by
  cases p with
  | regs | mem => exact fun a => (h' a).trans (h a)
  | host => exact ⟨h'.1.trans h.1, h'.2.trans h.2⟩
  | _ => exact Eq.trans h' h

/-- One frame after another. -/
theorem OnlyChanges.trans (h : OnlyChanges ps s t) (h' : OnlyChanges qs t u) : OnlyChanges (ps ++ qs) s u := by
  intro p hp
  obtain ⟨hps, hqs⟩ := not_or.1 (mt List.mem_append.2 hp)
  exact (h p hps).trans (h' p hqs)

/-- A part that came back to what it was need not be listed. -/
theorem OnlyChanges.restored {q : Part} (h : OnlyChanges ps s t) (hq : q.Same s t) (hsub : ps ⊆ q :: qs) :
    OnlyChanges qs s t := by
  intro p hp
  by_cases hpq : p = q
  · exact hpq ▸ hq
  · exact h p fun hps => (List.mem_cons.1 (hsub hps)).elim hpq hp

/-- Settles O27: `RET` lowers SP to where `CALL` found it and reads the entry that `CALL` put there. -/
theorem callThenRetComesBack : Obligations.CallThenRetComesBack := by
  intro nnn s h
  obtain ⟨t, hcall, -, hspt, hslot, hother, hframe⟩ := (callPushesTheNextAddress nnn s).1 h
  obtain ⟨u, hret, hspu, hpcu, hframe'⟩ := (retPopsTheLastAddress t).1 ⟨by omega, by omega⟩
  have hstack : u.stack = t.stack := hframe' .stack (by decide)
  have hsp : u.sp = s.sp := BitVec.eq_of_toNat_eq (by omega)
  refine ⟨t, u, hcall, hret, ?_, fun k hk hne => ?_, (hframe.trans hframe').restored (q := .sp) hsp (by decide)⟩
  · simp only [hspt, Nat.add_sub_cancel] at hpcu
    rw [hpcu, hslot]
  · rw [← hother k hk hne]
    simp only [hstack]

/-! ### skips -/

theorem byte_beq_eq_decide (a b : Byte) : (a == b) = decide (a.toNat = b.toNat) := by
  rw [Bool.beq_eq_decide_eq]
  exact decide_eq_decide.2 BitVec.toNat_inj.symm

/-- A skip that is taken where `P` fails. -/
theorem State.skipIf_not_moves (s : State) {c : Bool} {P : Prop} [Decidable P] (h : c = decide P) :
    MovesPc s (.next (s.skipIf (!c))) ((s.pc.toNat + if P then 2 else 4) % 65536) := by
  rw [← ite_not]
  exact s.skipIf_moves (by rw [h, decide_not])

/-- Settles O29: the skip's condition is equality of the two bytes as numbers. -/
theorem skipsOnAByte : Obligations.SkipsOnAByte := by
  intro x nn s
  rw [exec_seByte, exec_sneByte]
  exact ⟨s.skipIf_moves (byte_beq_eq_decide _ _), s.skipIf_not_moves (byte_beq_eq_decide _ _)⟩

/-- Settles O30: as for a byte, and no answer depends on the ignored nibble. -/
theorem skipsOnARegister : Obligations.SkipsOnARegister := by
  intro x y n s
  rw [exec_seReg, exec_sneReg]
  exact ⟨s.skipIf_moves (byte_beq_eq_decide _ _), s.skipIf_not_moves (byte_beq_eq_decide _ _)⟩

end Sys2Proof.Machine
end

section
/-! The immediate forms, `SUBN` and the shifts (41_alu.md). -/

namespace Sys2Proof.Machine

/-- Settles O31: both are results without a flag. -/
theorem immediateFormsWriteVx : Obligations.ImmediateFormsWriteVx := by
  intro x nn s
  rw [exec_ldByte, exec_addByte, ← BitVec.toNat_add]
  exact ⟨s.aluResult_result x _, s.aluResult_result x _⟩

/-- Settles O35: the difference the other way round and its no-borrow are what a flagged result writes. -/
theorem subnSubtractsTheOtherWay : Obligations.SubnSubtractsTheOtherWay := by
  intro x y s
  have h := s.aluFlagged_result x (s.reg y - s.reg x) (noBorrowFlag (s.reg y) (s.reg x))
  rwa [← exec_subn, byte_sub_toNat, noBorrowFlag_toNat] at h

/-! ### shifts as division and multiplication by 2 -/

theorem State.shiftSource_eq_reg (s : State) (x y : RegIdx) :
    s.shiftSource x y = s.reg (if s.cfg.shiftUsesY then y else x) := by
  unfold State.shiftSource
  split <;> rfl

theorem byte_shiftRight_one_toNat (b : Byte) : (b >>> 1).toNat = b.toNat / 2 := by
  rw [BitVec.toNat_ushiftRight, Nat.shiftRight_eq_div_pow]

theorem byte_shiftLeft_one_toNat (b : Byte) : (b <<< 1).toNat = b.toNat * 2 % 256 := by
  rw [BitVec.toNat_shiftLeft, Nat.shiftLeft_eq]

theorem droppedLow_toNat (b : Byte) : (droppedLow b).toNat = b.toNat % 2 := by
  rw [droppedLow, BitVec.getLsbD, Nat.toNat_testBit]
  simp

/-- Bit 7 is the highest of a byte, so nothing above it is left to cut off. -/
theorem droppedHigh_toNat (b : Byte) : (droppedHigh b).toNat = b.toNat / 128 := by
  have hb : b.toNat < 256 := b.isLt
  rw [droppedHigh, BitVec.getLsbD, Nat.toNat_testBit]
  omega

/-- Settles O36: half the operand and its bit 0 are the two numbers that a flagged result writes. -/
theorem shrHalvesAndDropsBitZero : Obligations.ShrHalvesAndDropsBitZero := by
  intro x y s
  have h := s.aluFlagged_result x (s.shiftSource x y >>> 1) (droppedLow (s.shiftSource x y))
  rwa [← exec_shr, byte_shiftRight_one_toNat, droppedLow_toNat, State.shiftSource_eq_reg] at h

/-- Settles O37: twice the operand and its bit 7 are the two numbers that a flagged result writes. -/
theorem shlDoublesAndDropsBitSeven : Obligations.ShlDoublesAndDropsBitSeven := by
  intro x y s
  have h := s.aluFlagged_result x (s.shiftSource x y <<< 1) (droppedHigh (s.shiftSource x y))
  rwa [← exec_shl, byte_shiftLeft_one_toNat, droppedHigh_toNat, State.shiftSource_eq_reg] at h

end Sys2Proof.Machine
end

section
/-! The keypad instructions (43_keypad_timers.md). -/

namespace Sys2Proof.Machine

variable {s : State} {x : RegIdx}

theorem State.keyDown_reg (h : (s.reg x).toNat ≤ 15) :
    s.keyDown ((s.reg x).setWidth 4) = s.turn.keys.getLsbD (s.reg x).toNat := by
  rw [State.keyDown, BitVec.toNat_setWidth, Nat.mod_eq_of_lt (by omega)]

/-- Settles O43: a checked key number is the key itself; above 15 the check is the whole of the meaning. -/
theorem keySkipsSampleOneKey : Obligations.KeySkipsSampleOneKey := by
  intro x s
  rw [exec_skp, exec_sknp]
  refine ⟨fun h => ?key, fun h => ?error⟩
  case key =>
    have hkey : s.keyDown ((s.reg x).setWidth 4) = decide (s.turn.keys.getLsbD (s.reg x).toNat = true) :=
      (State.keyDown_reg h).trans Bool.decide_eq_true.symm
    rw [checkedIndex_ok h]
    exact ⟨s.skipIf_moves hkey, s.skipIf_not_moves hkey⟩
  case error =>
    rw [checkedIndex_error h]
    exact ⟨s.conclude_raises _ _, s.conclude_raises _ _⟩

/-- Settles O45: without an event the answer is the state itself; with one it is the key, zero-extended, as a result. -/
theorem keyWaitBlocksOrTakesTheKey : Obligations.KeyWaitBlocksOrTakesTheKey := by
  intro x s
  rw [exec_ldVxK]
  refine ⟨fun h => ?_, fun k h => ?_⟩
  · rw [h]
    rfl
  · have hk : (k.setWidth 8).toNat = k.toNat := BitVec.toNat_setWidth_of_le (by decide)
    rw [h, ← hk]
    exact s.aluResult_result x (k.setWidth 8)

end Sys2Proof.Machine
end

section
/-! The address register and the font lookup (44_memory_index.md, R201 to R203). -/

namespace Sys2Proof.Machine

variable {s t : State} {ps : List Part}

theorem OnlyChanges.setI (h : OnlyChanges ps s t) (a : Word) : OnlyChanges (.i :: ps) s (t.setI a) := by
  refine h.cons fun p hne hp => ?_
  cases p with
  | i => exact absurd rfl hne
  | _ => exact hp

/-- Setting I and advancing writes I and PC alone. -/
theorem State.setI_advance_writes (s : State) (a : Word) :
    (s.setI a).advance.i = a ∧ Advances s (s.setI a).advance ∧ OnlyChanges [.i, .pc] s (s.setI a).advance :=
  ⟨rfl, State.advance_advances (s.setI a), ((OnlyChanges.refl s).setI a).advance_of_single⟩

/-- Settles O46: NNN, or the 16-bit sum, is the address that is set. -/
theorem addressRegisterLoadsAndAdds : Obligations.AddressRegisterLoadsAndAdds := by
  refine fun s => ⟨fun nnn => ?_, fun x => ?_⟩
  · obtain ⟨hi, hrest⟩ := s.setI_advance_writes (absAddr nnn)
    exact ⟨_, exec_ldI nnn s, by rw [hi, absAddr_toNat], hrest⟩
  · obtain ⟨hi, hrest⟩ := s.setI_advance_writes (s.i + zext16 (s.reg x))
    exact ⟨_, exec_addI x s, by rw [hi, BitVec.toNat_add, zext16_toNat], hrest⟩

/-- With legal parameters the whole font lies below 65536, so a glyph's address does not wrap. -/
theorem State.glyphAddr_toNat (hcfg : s.cfg.WellFormed) {b : Byte} (h : b.toNat ≤ 15) :
    (s.glyphAddr (b.setWidth 4)).toNat = s.cfg.fontBase + 5 * b.toNat := by
  obtain ⟨-, hmem, hload, hfont, -, -⟩ := hcfg
  have hdigit : (b.setWidth 4).toNat = b.toNat := by
    rw [BitVec.toNat_setWidth]
    omega
  rw [State.glyphAddr, hdigit, BitVec.toNat_ofNat]
  omega

/-- Settles O47: a checked glyph number sets its address; above 15 the check is the whole of the meaning. -/
theorem glyphLookupPointsIntoTheFont : Obligations.GlyphLookupPointsIntoTheFont := by
  intro x s hcfg
  rw [exec_ldF]
  refine ⟨fun h => ?_, fun h => ?_⟩
  · obtain ⟨hi, hrest⟩ := s.setI_advance_writes (s.glyphAddr ((s.reg x).setWidth 4))
    rw [checkedIndex_ok h]
    exact ⟨_, rfl, by rw [hi, State.glyphAddr_toNat hcfg h], hrest⟩
  · rw [checkedIndex_error h]
    exact s.conclude_raises _ _

end Sys2Proof.Machine
end

section
/-! Register blocks: what a store writes, a load reads back, and the next fetch sees (44_memory_index.md, R206, R207;
20_memory.md section 6). -/

namespace Sys2Proof.Machine

variable {s t : State} {x r : RegIdx}

/-! ### the block store -/

theorem State.blockRegs_getD_toNat (s : State) (h : r.toNat ≤ x.toNat) :
    (s.blockRegs x).getD r.toNat 0 = s.reg r := by
  rw [State.blockRegs_getD s x h, BitVec.ofNat_toNat, BitVec.setWidth_eq]

/-- Settles O50: X + 1 bytes stored at I, each a register's; else the first check of `MemWrite` that fails. -/
theorem blockStoreWritesItsWindow : Obligations.BlockStoreWritesItsWindow := by
  intro x s
  rw [exec_storeBlock]
  have hlen := s.blockRegs_length x
  refine ⟨fun hinv hbase hroom => ?stores, fun hrange => ?outOfRange, fun hroom hbelow => ?reserved⟩
  case stores =>
    obtain ⟨-, -, hwf, -, -⟩ := hinv
    obtain ⟨t, hnext, hbytes, hout, hrest⟩ :=
      State.conclude_memWrite_stores (.storeBlock x) hwf (bs := s.blockRegs x) (by omega) (by omega) hbase
    rw [hlen] at hout
    refine ⟨t, hnext, fun r hr => ?_, hout, hrest⟩
    rw [hbytes r.toNat (by omega), s.blockRegs_getD_toNat hr]
  case outOfRange => exact State.conclude_memWrite_outOfRange (.storeBlock x) (by omega)
  case reserved => exact State.conclude_memWrite_reserved (.storeBlock x) (by omega) (by omega) hbelow

/-! ### the block load -/

theorem OnlyChanges.setReg {ps : List Part} (h : OnlyChanges (.regs :: ps) s t) (x : RegIdx) (b : Byte) :
    OnlyChanges (.regs :: ps) s (t.setReg x b) := by
  intro p hp
  have hsame := h p hp
  cases p with
  | regs => exact absurd List.mem_cons_self hp
  | _ => exact hsame

theorem OnlyChanges.setRegs {ps : List Part} : ∀ (bs : List Byte) (k : Nat) {t : State},
    OnlyChanges (.regs :: ps) s t → OnlyChanges (.regs :: ps) s (t.setRegs k bs)
  | [], _, _, h => h
  | _ :: bs, k, _, h => OnlyChanges.setRegs bs (k + 1) (h.setReg _ _)

/-- Settles O51: X + 1 bytes read from I, each into its register; else the range error of `MemRead`. -/
theorem blockLoadReadsItsWindow : Obligations.BlockLoadReadsItsWindow := by
  intro x s
  have hx : x.toNat < 16 := x.isLt
  rw [exec_loadBlock]
  refine ⟨fun hroom => ?loads, fun hrange => ?error⟩
  case loads =>
    rw [State.memRead_inRange (by omega) (by omega)]
    have hframe : OnlyChanges [.regs] s (s.setRegs 0 (Memory.readList s.cfg s.mem s.i.toNat (x.toNat + 1))) :=
      OnlyChanges.setRegs _ _ ((OnlyChanges.refl s).mono (List.nil_subset _))
    refine ⟨_, rfl, fun r => ?_, ?_, hframe.advance_of_single⟩
    · rw [State.advance_reg, State.reg_setRegs _ _ _ _ (by rw [Memory.readList_length]; omega),
        Memory.readList_length]
      by_cases hr : r.toNat ≤ x.toNat
      · rw [if_pos (by omega), if_pos hr, Nat.sub_zero, Memory.getD_readList _ _ _ _ (by omega)]
        rfl
      · rw [if_neg (by omega), if_neg hr]
    · rw [Advances, ← s.setRegs_pc 0 (Memory.readList s.cfg s.mem s.i.toNat (x.toNat + 1))]
      exact State.advance_advances _
  case error =>
    rw [State.memRead_outOfRange (by omega) (by omega)]
    exact s.conclude_raises _ _

/-! ### a load and a fetch after a store -/

/-- Settles O52: the load reads the window the store wrote, byte by byte. -/
theorem blockLoadUndoesBlockStore : Obligations.BlockLoadUndoesBlockStore := by
  intro x s hinv hbase hroom
  obtain ⟨t, hstore, hbytes, -, -, hframe⟩ := (blockStoreWritesItsWindow x s).1 hinv hbase hroom
  have htcfg : t.cfg = s.cfg := hframe .cfg (by decide)
  refine ⟨t, hstore, fun u hcfg hmem hi => ?_⟩
  obtain ⟨w, hload, hregs, -⟩ := (blockLoadReadsItsWindow x u).1 (by rw [hi, hcfg]; exact hroom)
  have hbyte (a : Nat) : u.byteAt a = t.byteAt a := by
    rw [State.byteAt, State.byteAt, hcfg, htcfg, hmem]
  refine ⟨w, hload, fun r => ?_⟩
  rw [hregs r, hi]
  split
  case isTrue hr => rw [hbyte, hbytes r hr]
  case isFalse => rfl

/-- Settles O53: the store moves PC to I, so the next fetch reads the first two bytes stored. -/
theorem nextFetchSeesTheStore : Obligations.NextFetchSeesTheStore := by
  intro x s hinv halign hi hbase hx hroom
  obtain ⟨t, hstore, hbytes, -, hadv, hframe⟩ := (blockStoreWritesItsWindow x s).1 hinv hbase hroom
  have hcfg : t.cfg = s.cfg := hframe .cfg (by decide)
  have hpc : t.pc.toNat = s.i.toNat := by
    have hlt : s.i.toNat < 65536 := s.i.isLt
    rw [hadv]
    omega
  have hfetch := State.fetch_inRange (s := t) (by rw [hpc, hcfg]; omega) (by rw [hpc, hcfg]; omega)
  have hfirst : t.byteAt s.i.toNat = s.reg 0 := hbytes 0 (Nat.zero_le _)
  have hsecond : t.byteAt (s.i.toNat + 1) = s.reg 1 := hbytes 1 hx
  rw [hpc, hfirst, hsecond] at hfetch
  exact ⟨t, hstore, hfetch⟩

end Sys2Proof.Machine
end

section
/-! Reset and load, and the offers a host may not make (10_state.md section 7, 60_exceptions.md section 3). -/

namespace Sys2Proof.Machine

variable {s : State} {p : Params} {image : List Byte}

theorem State.load_fits (h : s.cfg.loadBase + image.length ≤ s.cfg.memSize) : s.load image =
    .next { s with mem := Memory.writeList s.cfg s.mem s.cfg.loadBase image } := by
  rw [State.load, if_pos h, State.pokeList, List.take_of_length_le (by omega)]

/-- Past the 80 bytes of the font table its default is the byte of unlisted memory (R71). -/
theorem resetByte_eq (p : Params) (a : Nat) : resetByte p a =
    if p.fontBase ≤ a ∧ a < p.fontBase + 80 then fontTable.getD (a - p.fontBase) 0 else 0 := by
  have hlen : fontTable.length = 80 := rfl
  unfold resetByte
  by_cases hlow : p.fontBase ≤ a
  · by_cases hhigh : a < p.fontBase + 80
    · rw [if_pos hlow, if_pos ⟨hlow, hhigh⟩]
    · rw [if_pos hlow, if_neg (hhigh ·.2), List.getD_eq_default _ _ (by omega)]
  · rw [if_neg hlow, if_neg (hlow ·.1)]

theorem State.resetWith_reg (p : Params) (r : RegIdx) : (State.resetWith p).reg r = 0 := by
  simp [State.reg, State.resetWith]

/-- Settles O54: the load writes memory alone, the image over an empty list; what is unlisted reads as the font or 0. -/
theorem sessionStartsWithTheListedValues : Obligations.SessionStartsWithTheListedValues := by
  intro p image hp hfits
  obtain ⟨-, hmem, hbase, -, -, -⟩ := hp
  refine ⟨_, State.load_fits hfits, State.resetWith_reg p, rfl, Nat.mod_eq_of_lt (hbase.trans_le hmem), rfl,
    fun k hk => Vector.getElem_replicate hk, rfl, rfl, rfl, blankDisplay_wf p, blankDisplay_pixel p, rfl, fun a => ?_⟩
  refine (Memory.read_writeList (p := p) image p.loadBase ⟨List.Pairwise.nil, nofun⟩ hfits a).trans ?_
  rw [← resetByte_eq]
  rfl

theorem State.load_tooLong (h : s.cfg.memSize < s.cfg.loadBase + image.length) :
    s.load image = .refused .imageDoesNotFit := if_neg (by omega)

/-- Settles O55: each refusal is the failed check of its interface; a key that passes is kept as four bits. -/
theorem offersOutsideTheContractAreRefused : Obligations.OffersOutsideTheContractAreRefused := by
  refine ⟨fun image s h => State.load_tooLong h, fun tick keys k rnd s => ⟨fun h => if_pos h, fun h => ?_⟩⟩
  have hkey : (k.setWidth 4).toNat = k.toNat := by
    rw [BitVec.toNat_setWidth]
    omega
  exact ⟨k.setWidth 4, hkey, if_neg (by omega)⟩

end Sys2Proof.Machine
end

section
/-! The blitter's loop against its closed form: the set bits of a sprite land on pixels all different, so each pixel is
toggled at most once, and each is tested before any toggle of it (42_display.md, R182). -/

namespace Sys2Proof.Machine

variable {p : Params} {d : Display} {x0 y0 u v : Nat} {rows : List Byte}

/-! ### the loop, pixel by pixel -/

/-- The pixel that a set bit lands on. -/
def wrapDot (p : Params) (x0 y0 : Nat) (dot : Nat × Nat) : Nat × Nat :=
  ((x0 + dot.1) % p.dispW, (y0 + dot.2) % p.dispH)

/-- The pixels that the set bits of a sprite land on, in the loop's order. -/
def spritePixels (p : Params) (x0 y0 : Nat) (rows : List Byte) : List (Nat × Nat) :=
  (spriteDots 0 rows).map (wrapDot p x0 y0)

/-- The body of the loop, at a pixel. -/
def blitPixel (acc : Display × Bool) (q : Nat × Nat) : Display × Bool :=
  (Display.toggle acc.1 q.1 q.2, acc.2 || Display.pixel acc.1 q.1 q.2)

theorem blit_eq_foldl (p : Params) (d : Display) (x0 y0 : Nat) (rows : List Byte) :
    blit p d x0 y0 rows = (spritePixels p x0 y0 rows).foldl blitPixel (d, false) := by
  rw [spritePixels, List.foldl_map]
  rfl

theorem Display.pixel_toggle_of_wf (h : Display.wf p d) (hu : u < p.dispW) (hv : v < p.dispH) (q : Nat × Nat) :
    Display.pixel (Display.toggle d q.1 q.2) u v = (Display.pixel d u v != decide ((u, v) = q)) := by
  rw [Display.pixel_toggle d q.1 q.2 u v (h.1 ▸ hv) (Display.row_length h hv ▸ hu), ← Bool.decide_and]
  simp only [Prod.ext_iff]

/-- Toggling different pixels one after another toggles each of them once. -/
theorem pixel_foldl_blitPixel (hu : u < p.dispW) (hv : v < p.dispH) : ∀ (qs : List (Nat × Nat)) (acc : Display × Bool),
    Display.wf p acc.1 → qs.Nodup → Display.pixel (qs.foldl blitPixel acc).1 u v =
      (Display.pixel acc.1 u v != decide ((u, v) ∈ qs))
  | [], acc, _, _ => by simp
  | q :: qs, acc, hwf, hnodup => by
    obtain ⟨hq, hqs⟩ := List.nodup_cons.1 hnodup
    have ih := pixel_foldl_blitPixel hu hv qs (blitPixel acc q) (Display.toggle_wf hwf _ _) hqs
    rw [List.foldl_cons, ih, blitPixel, Display.pixel_toggle_of_wf hwf hu hv]
    by_cases h : (u, v) = q
    · subst h
      simp [hq]
    · simp [h]

/-- The collision: some pixel was set before the loop, since no earlier toggle touched it. -/
theorem collision_foldl_blitPixel : ∀ (qs : List (Nat × Nat)) (acc : Display × Bool), Display.wf p acc.1 → qs.Nodup →
    (∀ q ∈ qs, q.1 < p.dispW ∧ q.2 < p.dispH) →
    ((qs.foldl blitPixel acc).2 = true ↔ acc.2 = true ∨ ∃ q ∈ qs, Display.pixel acc.1 q.1 q.2 = true)
  | [], acc, _, _, _ => by simp
  | q :: qs, acc, hwf, hnodup, hin => by
    obtain ⟨hq, hqs⟩ := List.nodup_cons.1 hnodup
    have ih := collision_foldl_blitPixel qs (blitPixel acc q) (Display.toggle_wf hwf _ _) hqs
      fun r hr => hin r (List.mem_cons_of_mem q hr)
    have hsame : ∀ r ∈ qs, Display.pixel (blitPixel acc q).1 r.1 r.2 = Display.pixel acc.1 r.1 r.2 := fun r hr => by
      obtain ⟨hr1, hr2⟩ := hin r (List.mem_cons_of_mem q hr)
      have hne : r ≠ q := fun h => hq (h ▸ hr)
      rw [blitPixel, Display.pixel_toggle_of_wf hwf hr1 hr2]
      simp [hne]
    have hrest : (∃ r ∈ qs, Display.pixel (blitPixel acc q).1 r.1 r.2 = true) ↔
        ∃ r ∈ qs, Display.pixel acc.1 r.1 r.2 = true :=
      exists_congr fun r => and_congr_right fun hr => by rw [hsame r hr]
    rw [List.foldl_cons, ih, hrest, List.exists_mem_cons_iff, ← or_assoc, blitPixel, Bool.or_eq_true]

/-! ### where a set bit lands -/

/-- An offset below the width is read back from the wrapped coordinate. -/
theorem wrap_eq_iff {W x c : Nat} (hx : x < W) (hc : c < W) (hu : u < W) : (x + c) % W = u ↔ c = (u + W - x) % W := by
  have hforth : (x + c) % W = if x + c < W then x + c else x + c - W := by
    split
    case isTrue h => exact Nat.mod_eq_of_lt h
    case isFalse h => rw [Nat.mod_eq_sub_mod (by omega), Nat.mod_eq_of_lt (by omega)]
  have hback : (u + W - x) % W = if u < x then u + W - x else u - x := by
    split
    case isTrue h => exact Nat.mod_eq_of_lt (by omega)
    case isFalse h =>
      rw [Nat.mod_eq_sub_mod (by omega), Nat.mod_eq_of_lt (by omega)]
      omega
  rw [hforth, hback]
  split <;> split <;> omega

section
/-! A sprite no wider and no higher than the display, as R5's bounds on the sizes give. -/

variable (hx : x0 < p.dispW) (hy : y0 < p.dispH) (hW : 8 ≤ p.dispW) (hH : rows.length ≤ p.dispH)
include hx hy hW hH

theorem wrapDot_eq_iff {c r : Nat} (hdot : (c, r) ∈ spriteDots 0 rows) (hu : u < p.dispW) (hv : v < p.dispH) :
    wrapDot p x0 y0 (c, r) = (u, v) ↔ c = (u + p.dispW - x0) % p.dispW ∧ r = (v + p.dispH - y0) % p.dispH := by
  obtain ⟨hc, -, hr, -⟩ := mem_spriteDots.1 hdot
  rw [wrapDot, Prod.mk.injEq, wrap_eq_iff hx (by omega) hu, wrap_eq_iff hy (by omega) hv]

theorem mem_spritePixels (hu : u < p.dispW) (hv : v < p.dispH) : (u, v) ∈ spritePixels p x0 y0 rows ↔
    ((u + p.dispW - x0) % p.dispW, (v + p.dispH - y0) % p.dispH) ∈ spriteDots 0 rows := by
  rw [spritePixels, List.mem_map]
  constructor
  · rintro ⟨⟨c, r⟩, hdot, hwrap⟩
    obtain ⟨rfl, rfl⟩ := (wrapDot_eq_iff hx hy hW hH hdot hu hv).1 hwrap
    exact hdot
  · exact fun hdot => ⟨_, hdot, (wrapDot_eq_iff hx hy hW hH hdot hu hv).2 ⟨rfl, rfl⟩⟩

omit hW hH in
theorem spritePixels_inRange {q : Nat × Nat} (hq : q ∈ spritePixels p x0 y0 rows) : q.1 < p.dispW ∧ q.2 < p.dispH := by
  obtain ⟨dot, -, rfl⟩ := List.mem_map.1 hq
  exact ⟨Nat.mod_lt _ (by omega), Nat.mod_lt _ (by omega)⟩

theorem spritePixels_nodup : (spritePixels p x0 y0 rows).Nodup := by
  refine List.Nodup.map_on ?_ (spriteDots_nodup rows 0)
  rintro ⟨c, r⟩ hdot ⟨c', r'⟩ hdot' hwrap
  obtain ⟨hu, hv⟩ := spritePixels_inRange hx hy (List.mem_map_of_mem hdot')
  obtain ⟨hc, hr⟩ := (wrapDot_eq_iff hx hy hW hH hdot hu hv).1 hwrap
  obtain ⟨hc', hr'⟩ := (wrapDot_eq_iff hx hy hW hH hdot' hu hv).1 rfl
  rw [hc, hr, ← hc', ← hr']

theorem blit_pixel (hwf : Display.wf p d) (hu : u < p.dispW) (hv : v < p.dispH) :
    Display.pixel (blit p d x0 y0 rows).1 u v =
      (Display.pixel d u v != decide ((u, v) ∈ spritePixels p x0 y0 rows)) := by
  rw [blit_eq_foldl]
  exact pixel_foldl_blitPixel hu hv _ _ hwf (spritePixels_nodup hx hy hW hH)

theorem blit_collision (hwf : Display.wf p d) : (blit p d x0 y0 rows).2 = true ↔
    ∃ u v, u < p.dispW ∧ v < p.dispH ∧ Display.pixel d u v = true ∧ (u, v) ∈ spritePixels p x0 y0 rows := by
  rw [blit_eq_foldl, collision_foldl_blitPixel _ _ hwf (spritePixels_nodup hx hy hW hH)
    fun q hq => spritePixels_inRange hx hy hq]
  constructor
  · rintro (hfalse | ⟨q, hq, hset⟩)
    · cases hfalse
    · obtain ⟨hu, hv⟩ := spritePixels_inRange hx hy hq
      exact ⟨q.1, q.2, hu, hv, hset, hq⟩
  · rintro ⟨u, v, -, -, hset, hq⟩
    exact .inr ⟨(u, v), hq, hset⟩

end

end Sys2Proof.Machine
end

section
/-! `DRW`: its closed form, drawing twice, and the edges of the row count (42_display.md, R182, R183). -/

namespace Sys2Proof.Machine

variable {s t : State} {x0 y0 n u v : Nat} {rows : List Byte}

/-! ### the closed form's one bit -/

theorem State.spriteBit_eq_true : s.spriteBit x0 y0 n u v = true ↔ (u + s.cfg.dispW - x0) % s.cfg.dispW < 8 ∧
    (v + s.cfg.dispH - y0) % s.cfg.dispH < n ∧ (s.byteAt (s.i.toNat + (v + s.cfg.dispH - y0) % s.cfg.dispH)).getLsbD
      (7 - (u + s.cfg.dispW - x0) % s.cfg.dispW) = true := by
  simp [State.spriteBit, and_assoc]

theorem State.spriteBit_congr (hcfg : t.cfg = s.cfg) (hi : t.i = s.i) (hmem : ∀ a, t.byteAt a = s.byteAt a) :
    t.spriteBit x0 y0 n u v = s.spriteBit x0 y0 n u v := by
  simp only [State.spriteBit, hcfg, hi, hmem]

/-- Some pixel has a set bit on it exactly when some row of the sprite is not 0. -/
theorem State.exists_spriteBit_iff (hcfg : s.cfg.WellFormed) (hn : n ≤ 15) (hx : x0 < s.cfg.dispW)
    (hy : y0 < s.cfg.dispH) :
    (∃ u v, u < s.cfg.dispW ∧ v < s.cfg.dispH ∧ s.spriteBit x0 y0 n u v = true) ↔
      ∃ k, k < n ∧ s.byteAt (s.i.toNat + k) ≠ 0 := by
  obtain ⟨-, -, -, -, hW, hH⟩ := hcfg
  constructor
  · rintro ⟨u, v, -, -, hbit⟩
    obtain ⟨-, hr, hset⟩ := State.spriteBit_eq_true.1 hbit
    refine ⟨_, hr, fun h0 => ?_⟩
    simp [h0] at hset
  · rintro ⟨k, hk, hne⟩
    obtain ⟨j, hj, hset⟩ : ∃ j, j < 8 ∧ (s.byteAt (s.i.toNat + k)).getLsbD j = true := by
      by_contra hnone
      exact hne (BitVec.eq_of_getLsbD_eq fun j hj => by simpa using fun h => hnone ⟨j, hj, h⟩)
    have hu : (x0 + (7 - j)) % s.cfg.dispW < s.cfg.dispW := Nat.mod_lt _ (by omega)
    have hv : (y0 + k) % s.cfg.dispH < s.cfg.dispH := Nat.mod_lt _ (by omega)
    have hc := (wrap_eq_iff hx (c := 7 - j) (by omega) hu).1 rfl
    have hr := (wrap_eq_iff hy (c := k) (by omega) hv).1 rfl
    refine ⟨_, _, hu, hv, State.spriteBit_eq_true.2 ?_⟩
    rw [← hc, ← hr, show 7 - (7 - j) = j by omega]
    exact ⟨by omega, hk, hset⟩

/-! ### what `DRW` leaves -/

/-- The rows of a sprite in range, or none. -/
theorem State.memRead_rows (h : n = 0 ∨ s.i.toNat + n ≤ s.cfg.memSize) :
    s.memRead s.i.toNat n = .ok (Memory.readList s.cfg s.mem s.i.toNat n) := by
  by_cases hn : n = 0
  · subst hn
    rfl
  · exact State.memRead_inRange (by omega) (by omega)

theorem exec_drw_draws (x y : RegIdx) {n : Nibble} (h : n = 0 ∨ s.i.toNat + n.toNat ≤ s.cfg.memSize) :
    exec (.drw x y n) s = .next (s.drawSprite x y (Memory.readList s.cfg s.mem s.i.toNat n.toNat)) := by
  rw [exec_drw, State.memRead_rows (h.imp_left fun h0 => by rw [h0]; rfl)]
  rfl

theorem State.drawSprite_advances (s : State) (x y : RegIdx) (rows : List Byte) :
    Advances s (s.drawSprite x y rows) := s.advance_advances

theorem State.drawSprite_frame (s : State) (x y : RegIdx) (rows : List Byte) :
    OnlyChanges [.regs, .pc, .disp] s (s.drawSprite x y rows) := by
  have hdisp (d : Display) : OnlyChanges [.regs, .disp] s (s.setDisp d) :=
    ((OnlyChanges.refl s).setDisp d).mono (by decide)
  exact (((hdisp _).setReg vf _).setPc _).mono (by decide)

section
/-! The loop's closed form, for a sprite of at most 15 rows read from I. -/

variable (hcfg : s.cfg.WellFormed) (hn : n ≤ 15) (hx : x0 < s.cfg.dispW) (hy : y0 < s.cfg.dispH)
include hcfg hn hx hy

theorem State.mem_spritePixels_iff (hu : u < s.cfg.dispW) (hv : v < s.cfg.dispH) :
    (u, v) ∈ spritePixels s.cfg x0 y0 (Memory.readList s.cfg s.mem s.i.toNat n) ↔ s.spriteBit x0 y0 n u v = true := by
  have ⟨_, _, _, _, hW, hH⟩ := hcfg
  rw [mem_spritePixels hx hy hW (by rw [Memory.readList_length]; omega) hu hv, mem_spriteDots,
    State.spriteBit_eq_true, Memory.readList_length, Nat.zero_add, Nat.sub_zero]
  refine and_congr_right fun _ => ?_
  constructor
  · rintro ⟨-, hr, hbit⟩
    rw [Memory.getD_readList _ _ _ _ hr] at hbit
    exact ⟨hr, hbit⟩
  · rintro ⟨hr, hbit⟩
    rw [Memory.getD_readList _ _ _ _ hr]
    exact ⟨Nat.zero_le _, hr, hbit⟩

theorem State.blit_pixel_eq_spriteBit (hdisp : Display.wf s.cfg s.disp) (hu : u < s.cfg.dispW) (hv : v < s.cfg.dispH) :
    Display.pixel (blit s.cfg s.disp x0 y0 (Memory.readList s.cfg s.mem s.i.toNat n)).1 u v =
      (Display.pixel s.disp u v != s.spriteBit x0 y0 n u v) := by
  have ⟨_, _, _, _, hW, hH⟩ := hcfg
  rw [blit_pixel hx hy hW (by rw [Memory.readList_length]; omega) hdisp hu hv]
  simp only [State.mem_spritePixels_iff hcfg hn hx hy hu hv, Bool.decide_eq_true]

theorem State.blit_collision_iff_spriteBit (hdisp : Display.wf s.cfg s.disp) :
    (blit s.cfg s.disp x0 y0 (Memory.readList s.cfg s.mem s.i.toNat n)).2 = true ↔
      ∃ u v, u < s.cfg.dispW ∧ v < s.cfg.dispH ∧ Display.pixel s.disp u v = true ∧ s.spriteBit x0 y0 n u v = true := by
  have ⟨_, _, _, _, hW, hH⟩ := hcfg
  rw [blit_collision hx hy hW (by rw [Memory.readList_length]; omega) hdisp]
  refine exists_congr fun u => exists_congr fun v => and_congr_right fun hu => and_congr_right fun hv => ?_
  rw [State.mem_spritePixels_iff hcfg hn hx hy hu hv]

end

theorem flagByte_eq_zero_or_one (f : Bool) :
    (if f then 0x01 else 0x00 : Byte) = 0 ∨ (if f then 0x01 else 0x00 : Byte) = 1 := by
  cases f <;> decide

theorem flagByte_eq_one (f : Bool) : (if f then 0x01 else 0x00 : Byte) = 1 ↔ f = true := by
  cases f <;> decide

/-- Settles O40: the loop's closed form at the rows that `MemRead` answers, the collision written to VF. -/
theorem drwXorsTheWrappedSprite : Obligations.DrwXorsTheWrappedSprite := by
  intro x y n s hinv hrange
  obtain ⟨hcfg, -, -, -, hdisp⟩ := hinv
  have ⟨_, _, _, _, hW, hH⟩ := hcfg
  have hn : n.toNat ≤ 15 := by omega
  have hx : (s.reg x).toNat % s.cfg.dispW < s.cfg.dispW := Nat.mod_lt _ (by omega)
  have hy : (s.reg y).toNat % s.cfg.dispH < s.cfg.dispH := Nat.mod_lt _ (by omega)
  have hreg := s.drawSprite_reg x y (Memory.readList s.cfg s.mem s.i.toNat n.toNat)
  have hvf := (hreg vf).trans (if_pos rfl)
  refine ⟨_, exec_drw_draws x y hrange, fun u v => State.blit_pixel_eq_spriteBit hcfg hn hx hy hdisp, ?flag, ?collision,
    fun r hr => (hreg r).trans (if_neg hr), s.drawSprite_advances x y _, s.drawSprite_frame x y _⟩
  case flag =>
    rw [hvf]
    exact flagByte_eq_zero_or_one _
  case collision =>
    rw [hvf, flagByte_eq_one]
    exact State.blit_collision_iff_spriteBit hcfg hn hx hy hdisp

/-- Settles O41: the second draw is the first one's closed form again, so every pixel is XORed twice with one bit, and a
set bit meets a set pixel exactly where the pixel was 0 at first. -/
theorem drawingTwiceRestoresTheDisplay : Obligations.DrawingTwiceRestoresTheDisplay := by
  intro x y n s hinv hrange hxvf hyvf
  obtain ⟨t, hexec, hpix, -, -, hregs, -, hframe⟩ := drwXorsTheWrappedSprite x y n s hinv hrange
  have htinv := exec_keeps_inv hinv hexec
  have htcfg : t.cfg = s.cfg := hframe .cfg (by decide)
  have hti : t.i = s.i := hframe .i (by decide)
  have htmem : ∀ a, t.byteAt a = s.byteAt a := hframe .mem (by decide)
  obtain ⟨u, hexec', hpix', hflag, hcoll, -, -, hframe'⟩ :=
    drwXorsTheWrappedSprite x y n t htinv (by rw [hti, htcfg]; exact hrange)
  have huinv := exec_keeps_inv htinv hexec'
  have hutcfg : u.cfg = t.cfg := hframe' .cfg (by decide)
  simp only [State.spriteBit_congr htcfg hti htmem, hregs x hxvf, hregs y hyvf, htcfg] at hpix' hcoll
  have hsecond : u.reg vf = 1 ↔ ∃ px py, px < s.cfg.dispW ∧ py < s.cfg.dispH ∧ Display.pixel s.disp px py = false ∧
      s.spriteBit ((s.reg x).toNat % s.cfg.dispW) ((s.reg y).toNat % s.cfg.dispH) n.toNat px py = true := by
    rw [hcoll]
    refine exists_congr fun px => exists_congr fun py => and_congr_right fun hpx => and_congr_right fun hpy =>
      and_congr_left fun hbit => ?_
    rw [hpix px py hpx hpy, hbit, Bool.bne_true, Bool.not_eq_true']
  obtain ⟨hcfg, -, -, -, hdisp⟩ := hinv
  obtain ⟨-, -, -, -, hudisp⟩ := exec_keeps_inv htinv hexec'
  have ⟨_, _, _, _, hW, hH⟩ := hcfg
  refine ⟨t, u, hexec, hexec', ?restored, hflag, hsecond, fun hempty => ?onEmpty⟩
  case restored =>
    rw [hutcfg, htcfg] at hudisp
    refine Display.ext_pixels hudisp hdisp fun px py hpx hpy => ?_
    rw [hpix' px py hpx hpy, hpix px py hpx hpy, Bool.bne_assoc, bne_self_eq_false, Bool.bne_false]
  case onEmpty =>
    rw [hsecond, ← State.exists_spriteBit_iff hcfg (by omega) (Nat.mod_lt (s.reg x).toNat (by omega))
      (Nat.mod_lt (s.reg y).toNat (by omega))]
    simp only [hempty, true_and]

/-- Settles O42: no row is no set bit, and a row out of range is the range error of `MemRead`. -/
theorem drwEdgesOfTheRowCount : Obligations.DrwEdgesOfTheRowCount := by
  intro x y n s
  refine ⟨?none, ?outOfRange⟩
  case none =>
    rintro rfl
    have hframe : OnlyChanges [.regs, .pc] s (s.drawSprite x y []) :=
      (s.drawSprite_frame x y []).restored (q := .disp) rfl (by decide)
    exact ⟨_, exec_drw_draws x y (.inl rfl), rfl, s.drawSprite_reg x y [], s.drawSprite_advances x y [], hframe⟩
  case outOfRange =>
    intro hn hrange
    have hpos : 1 ≤ n.toNat := Nat.one_le_iff_ne_zero.2 fun h0 => hn (BitVec.eq_of_toNat_eq h0)
    rw [exec_drw, State.memRead_outOfRange hpos hrange]
    exact s.conclude_raises _ _

end Sys2Proof.Machine
end
